-- ==== Sys2Proof/Word.lean ====
section
/-!
DEFINITION. The value domains of the 7e1 CORE (00_scope.md R8, R10): the 32-bit word, the 30-bit payload and
the 2-bit tag. An address is a natural number: every address sum of the machine is exact (R10).
-/

namespace Sys2Proof

/-- `u32`: a memory word and every stack value (R10, R20). -/
abbrev Word := BitVec 32

/-- `u30`: the payload of a word, a literal magnitude or an opcode id (R10, R91). -/
abbrev Payload := BitVec 30

/-- `u2`: the tag of a word (R10, R91). -/
abbrev Tag := BitVec 2

/-- A decimal digit: what the text of PRN is made of (R28, R151). -/
abbrev Digit := Fin 10

end Sys2Proof
end

