-- ==== Sys2Proof/Syntax.lean ====
section
/-!
DEFINITION. The instruction set: the twelve primitive operations of the opcode map (30_encoding.md R99) and the
instructions, one constructor per row of spec/opcode_table.json.
-/

namespace Sys2Proof

/-- The twelve mnemonics of the primitive operations, in the source's order (R6, R99). `OPID` gives each its id. -/
inductive Op where
  | halt | add | sub | mul | div | dup | jmp | jz | prn | prnchar | load | stor
  deriving DecidableEq, Repr

/-- The opcode table's primitive rows, in its order (R99). -/
def Op.all : List Op :=
  [.halt, .add, .sub, .mul, .div, .dup, .jmp, .jz, .prn, .prnchar, .load, .stor]

/-- The instructions: one constructor per row of the opcode table. No primitive carries an operand (R96). A tag-1
word whose payload is no opcode id is not an instruction: the decoder rejects it by name (R160). -/
inductive Instr where
  /-- LIT: a word of tag 0, its payload an unsigned immediate (R120). -/
  | lit (imm : Payload)
  /-- NLIT: a word of tag 2; the payload carries no sign (R121). -/
  | nlit (imm : Payload)
  | halt
  | add
  | sub
  | mul
  | div
  | dup
  | jmp
  | jz
  | prn
  | prnchar
  | load
  | stor
  /-- RSVD3: a word of the reserved tag 3; its payload is dispatched as an opcode id (R101, R161). -/
  | rsvd3 (opid : Payload)
  deriving DecidableEq, Repr

/-- The instruction a tag-1 word stands for once its id is found in the opcode map. -/
def Op.instr : Op → Instr
  | .halt => .halt
  | .add => .add
  | .sub => .sub
  | .mul => .mul
  | .div => .div
  | .dup => .dup
  | .jmp => .jmp
  | .jz => .jz
  | .prn => .prn
  | .prnchar => .prnchar
  | .load => .load
  | .stor => .stor

end Sys2Proof
end

