-- ==== Sys2Proof/Config.lean ====
section
/-!
DEFINITION. The parameters of the model (00_scope.md R5 to R7): the three region sizes, the opcode numbering
`OPID`, and the initial memory contents `MEM_INIT`. The first two are plain data that an instance carries; the
third is a free value.
-/

namespace Sys2Proof

/-- `OPID`, the numbering of the twelve primitives (R6). The source gives no numbers, so it is a parameter. -/
structure OpIds where
  halt : Payload
  add : Payload
  sub : Payload
  mul : Payload
  div : Payload
  dup : Payload
  jmp : Payload
  jz : Payload
  prn : Payload
  prnchar : Payload
  load : Payload
  stor : Payload
  deriving DecidableEq, Repr

/-- `OPID(m)`. -/
def OpIds.id (ids : OpIds) : Op → Payload
  | .halt => ids.halt
  | .add => ids.add
  | .sub => ids.sub
  | .mul => ids.mul
  | .div => ids.div
  | .dup => ids.dup
  | .jmp => ids.jmp
  | .jz => ids.jz
  | .prn => ids.prn
  | .prnchar => ids.prnchar
  | .load => ids.load
  | .stor => ids.stor

/-- The default `OPID`: the position in the source's table, counted from 0 (R6, the spec's decision D2). -/
def OpIds.tableOrder : OpIds :=
  { halt := 0, add := 1, sub := 2, mul := 3, div := 4, dup := 5, jmp := 6, jz := 7, prn := 8, prnchar := 9,
    load := 10, stor := 11 }

/-- The wired constants of one instance (R5, R6, R32): `STACK_LIMIT`, `DATA_BASE`, `MEM_SIZE` and `OPID`. They are
fixed for the life of the instance; no instruction reads or changes them as data. -/
structure Config where
  stackLimit : Nat
  dataBase : Nat
  memSize : Nat
  opid : OpIds
  deriving DecidableEq, Repr

/-- `CFG_REF`, the spec's first example configuration (00_scope.md section 3, D23). -/
def Config.ref : Config :=
  { stackLimit := 256, dataBase := 768, memSize := 1024, opid := OpIds.tableOrder }

/-- `CFG_TINY`, the spec's second example configuration (00_scope.md section 3, D23). -/
def Config.tiny : Config :=
  { stackLimit := 4, dataBase := 8, memSize := 12, opid := OpIds.tableOrder }

/-- `MEM_INIT`, the content of memory when a fresh instance is made (R7, R41): OPEN in the spec (D9), so a free value
with no body here. A word that nothing has written reads as `Config.memInit` of its address (log 3). -/
opaque Config.memInit : Nat → Word

end Sys2Proof
end

