-- ==== Sys2Proof/WellFormed.lean ====
section
/-!
DEFINITION. The static checks: when a configuration is one the spec allows (00_scope.md R5, R6), when an
instruction may stand in a program (93_implementation_defined.md U1), and when a program fits its window
(70_reset_and_hazards.md R202).
-/

namespace Sys2Proof

/-- No two mnemonics share an opcode id (R6: `OPID` is injective). -/
abbrev OpIds.Injective (ids : OpIds) : Prop :=
  (Op.all.map ids.id).Nodup

/-- The constraint R5 puts on the sizes, and R6's on the numbering. Windows may be empty. -/
abbrev Config.WellFormed (c : Config) : Prop :=
  1 ≤ c.stackLimit ∧ c.stackLimit ≤ c.dataBase ∧ c.dataBase ≤ c.memSize ∧ c.memSize ≤ 2 ^ 32 ∧ c.opid.Injective

/-- May a program contain this instruction? Every one but a word of the reserved tag 3 (R101, U1, C4). The
machine itself executes such a word (R161); this is a check on programs, not on the machine. -/
def Instr.wellFormed : Instr → Bool
  | .rsvd3 _ => false
  | _ => true

/-- A program that may be loaded: at most `DATA_BASE - STACK_LIMIT` words (R202), none of the reserved tag (U1). -/
def programWellFormed (c : Config) (p : List Instr) : Bool :=
  decide (p.length ≤ c.dataBase - c.stackLimit) && p.all Instr.wellFormed

end Sys2Proof
end

