-- ==== Sys2Proof/Decode.lean ====
section
/-!
DEFINITION. The instruction codec and word classifier (30_encoding.md R90 to R102): the two fields of a word, the
opcode map's lookup, the decoder, total on every 32-bit word and rejecting by name, and the encoder.
-/

namespace Sys2Proof

/-- `classify(w) = w[31:30]` (R92). -/
def classify (w : Word) : Tag :=
  w.extractLsb' 30 2

/-- `payload(w) = w[29:0]` (R93). -/
def payload (w : Word) : Payload :=
  w.extractLsb' 0 30

/-- `encode(t, p)`: the word of tag `t` and payload `p` (R95), bits 31-30 the tag and bits 29-0 the payload. -/
def packWord (t : Tag) (p : Payload) : Word :=
  t ++ p

/-- `zext_32` of a payload: the immediate a literal pushes (R97). -/
def zeroExtend (p : Payload) : Word :=
  p.setWidth 32

/-- The primitive whose opcode id is `id`, if the opcode map has one (R98: at most one, `OPID` being injective). -/
def lookupOp (ids : OpIds) (id : Payload) : Option Op :=
  Op.all.find? fun m => ids.id m == id

/-- What the decoder makes of a word: an instruction, or a rejection by name. -/
inductive Decoded where
  | instr (i : Instr)
  /-- A tag-1 word whose payload is no opcode id (R100, R160). -/
  | unknownOpcode (id : Payload)
  deriving DecidableEq, Repr

/-- A tag-1 word: its payload is looked up in the opcode map (R98). -/
def decodePrimitive (ids : OpIds) (id : Payload) : Decoded :=
  match lookupOp ids id with
  | some m => .instr m.instr
  | none => .unknownOpcode id

/-- The decoder (R98 to R102): by tag, 0 positive literal, 1 primitive, 2 negative literal, 3 reserved. -/
def decode (ids : OpIds) (w : Word) : Decoded :=
  if classify w = 0 then .instr (.lit (payload w))
  else if classify w = 1 then decodePrimitive ids (payload w)
  else if classify w = 2 then .instr (.nlit (payload w))
  else .instr (.rsvd3 (payload w))

/-- The word of a primitive: `encode(1, OPID(m))` (R99). -/
def encodeOp (ids : OpIds) (m : Op) : Word :=
  packWord 1 (ids.id m)

/-- The encoder: the word of an instruction under a numbering, from the formats of R96 and the map of R99. -/
def encode (ids : OpIds) : Instr → Word
  | .lit imm => packWord 0 imm
  | .nlit imm => packWord 2 imm
  | .halt => encodeOp ids .halt
  | .add => encodeOp ids .add
  | .sub => encodeOp ids .sub
  | .mul => encodeOp ids .mul
  | .div => encodeOp ids .div
  | .dup => encodeOp ids .dup
  | .jmp => encodeOp ids .jmp
  | .jz => encodeOp ids .jz
  | .prn => encodeOp ids .prn
  | .prnchar => encodeOp ids .prnchar
  | .load => encodeOp ids .load
  | .stor => encodeOp ids .stor
  | .rsvd3 id => packWord 3 id

/-- The instruction the decoder reads from a table word: one 32-bit word (R90), taken as a number (R64), under the
default numbering the opcode table is written in (R6, D2). `nbits` is 32 for every row; bits above it are 0. -/
def decodeTableWord (nbits w : Nat) : Option Instr :=
  match decode OpIds.tableOrder (BitVec.ofNat 32 (w % 2 ^ nbits)) with
  | .instr i => some i
  | .unknownOpcode _ => none

end Sys2Proof
end

