-- ==== Sys2Proof/Machine/State.lean ====
section
/-!
DEFINITION. The architectural state (10_state.md R20 to R28), the two kinds of stop of the model, and reset
(R40, R41, 70_reset_and_hazards.md R200).
-/

namespace Sys2Proof.Machine

/-- The three address windows, which are the kinds of the bounds checker (20_memory.md R51, R54). -/
inductive Region where
  | stack
  | instruction
  | programData
  deriving DecidableEq, Repr

/-- The three fatal errors of the machine (60_exceptions.md R170). Raising one is a NEXT state: the error is latched
in `FAULT` and `RUN` is cleared (R175). -/
inductive FatalError where
  | outOfBounds (region : Region) (address : Nat)
  | unknownOpcode (id : Payload)
  | divisionByZero
  deriving DecidableEq, Repr

/-- One transaction of the output port (10_state.md R28, 45_output.md R150). -/
inductive OutEvent where
  /-- `Text(s)`: the decimal digits PRN wrote, most significant first. -/
  | text (digits : List Digit)
  /-- `Char(c)`: the code point PRNCHAR wrote, the whole word. -/
  | char (codePoint : Word)
  deriving DecidableEq, Repr

/-- The words written since reset, by address, addresses strictly rising. An address not listed has not been
written and reads as `Config.memInit` of it (R41, log 3). A cell is a word: the machine's smallest addressable unit
(R50, R64, log 4). -/
abbrev Memory := List (Nat × Word)

/-- The state of the machine (R20 to R28) with its wired constants (R32, log 1). -/
structure State where
  /-- `STACK_LIMIT`, `DATA_BASE`, `MEM_SIZE`, `OPID`: fixed for the life of the instance (R5, R6). -/
  cfg : Config
  /-- `MEM` (R20). -/
  mem : Memory
  /-- `SP`: the address of the top live stack word, 0 when the stack is empty (R21). -/
  sp : Word
  /-- `IP`: the absolute address of the word being executed (R22). -/
  ip : Word
  /-- `TR`: the tag of the word last decoded (R23). -/
  tr : Tag
  /-- `DR`: the payload of the word last decoded (R24). -/
  dr : Payload
  /-- `RUN`: true while executing (R25). -/
  run : Bool
  /-- `FAULT`: the error that ended the run, if one did (R27). -/
  fault : Option FatalError
  /-- `OUT`: the output events, oldest first (R28). -/
  out : List OutEvent
  deriving DecidableEq, Repr

/-- Reasons the MODEL stops (the machine's own fatal errors are next states, R175). -/
inductive Fault where
  /-- An access to an address at or above `MEM_SIZE`, which does not exist (R11, R50). Raised by `memRead` and
  `memWrite`. SAFE: every access is checked first, so no state with a well-formed configuration raises it (log 11). -/
  | absentAddress (address : Nat)
  deriving DecidableEq, Repr

/-- Things the model gives no meaning to. -/
inductive Refusal where
  /-- An instruction with no meaning yet, by its mnemonic. Raised by an arm of `exec` and by nothing else. SAFE. -/
  | notModelled (mnemonic : String)
  /-- The host loads after a run has begun (R219, U8). Raised by the transaction `load`, by no instruction. SAFE:
  the spec gives that order of transactions no meaning (log 13). -/
  | loadAfterRun
  deriving DecidableEq, Repr

/-- A fresh instance of a configuration: every element at its reset value (R40, R41, R200). -/
def State.fresh (c : Config) : State :=
  { cfg := c, mem := [], sp := 0, ip := BitVec.ofNat 32 (c.stackLimit - 1), tr := 0, dr := 0, run := true,
    fault := none, out := [] }

/-- The machine right after reset, in the spec's reference configuration (R40, log 2). -/
def State.reset : State :=
  State.fresh Config.ref

end Sys2Proof.Machine
end

