-- ==== Sys2Proof/Machine/Ops.lean ====
section
/-!
DEFINITION. The shared operations: memory, the bounds checker and the arbiter's checked accesses (20_memory.md), the
stack accessors, the entry to a fatal error (60_exceptions.md R175), instruction fetch and the decode latch
(30_encoding.md R103), and how a part of a cycle ends.
-/

namespace Sys2Proof.Machine

/-! ### Memory as a list of written words -/

/-- The word written last at `a`, if one was. -/
def Memory.lookup : Memory → Nat → Option Word
  | [], _ => none
  | (b, v) :: m, a => if a = b then some v else Memory.lookup m a

/-- `MEM[a]`: the last word written there, else `MEM_INIT(a)` (R11, R41, R69 c). -/
def Memory.read (m : Memory) (a : Nat) : Word :=
  (m.lookup a).getD (Config.memInit a)

/-- `MEM[a] <- v`, keeping the addresses strictly rising. -/
def Memory.write : Memory → Nat → Word → Memory
  | [], a, v => [(a, v)]
  | (b, u) :: m, a, v =>
    if a < b then (a, v) :: (b, u) :: m
    else if a = b then (a, v) :: m
    else (b, u) :: Memory.write m a v

/-- The canonical form: the addresses listed are strictly rising. -/
abbrev Memory.wf (m : Memory) : Prop :=
  m.Pairwise fun x y => x.1 < y.1

/-! ### Single updates of the state -/

/-- `SP <- v`. -/
def State.setSp (s : State) (v : Word) : State := { s with sp := v }

/-- `IP <- v`. -/
def State.setIp (s : State) (v : Word) : State := { s with ip := v }

/-- `MEM[a] <- v`, unchecked. -/
def State.setWord (s : State) (a : Nat) (v : Word) : State := { s with mem := s.mem.write a v }

/-- `TR <- classify(w)`, `DR <- payload(w)`: the decode phase (R92, R93, R103). -/
def State.latch (s : State) (w : Word) : State := { s with tr := classify w, dr := payload w }

/-- `Emit(e)`: append an event to `OUT` (R11, R28). -/
def State.emit (s : State) (e : OutEvent) : State := { s with out := s.out ++ [e] }

/-- `RUN <- 0` (R125). -/
def State.stop (s : State) : State := { s with run := false }

/-- The entry to a fatal error, `raise E` (R175): `FAULT` takes the error unless it holds one already (it is
write-once, R27), `RUN` is cleared, nothing else changes: no state is saved, no handler is entered. -/
def State.raise (s : State) (e : FatalError) : State :=
  { s with fault := s.fault.or (some e), run := false }

/-! ### How a part of a cycle ends -/

/-- The result of a part of a cycle. A raised error ends the cycle where it is raised, and the writes made before it
stay (R11, R176). -/
inductive Res (α : Type) where
  /-- It is done, with a value. -/
  | ok (v : α) (s : State)
  /-- A fatal error was raised; `s` is the state that leaves. -/
  | fatal (s : State)
  /-- The model stops: there is no word at this address (`Fault.absentAddress`). -/
  | absent (address : Nat)
  deriving DecidableEq, Repr

/-- Go on with the rest of the cycle, unless it has ended. -/
def Res.andThen {α β : Type} (r : Res α) (k : α → State → Res β) : Res β :=
  match r with
  | .ok v s => k v s
  | .fatal s => .fatal s
  | .absent a => .absent a

/-- The end of the cycle: a raised error is a next state too, the one `raise` left (R175). -/
def Res.finish (r : Res Unit) : Host.Outcome State Fault Refusal :=
  match r with
  | .ok _ s => .next s
  | .fatal s => .next s
  | .absent a => .fault (.absentAddress a)

/-! ### The arbiter: bounds check and checked access -/

/-- `CheckBounds(kind, a)` (R54). Address 0 is never a valid Stack address (C1). -/
def checkBounds (c : Config) (k : Region) (a : Nat) : Bool :=
  match k with
  | .stack => decide (0 < a ∧ a < c.stackLimit)
  | .instruction => decide (c.stackLimit ≤ a ∧ a < c.dataBase)
  | .programData => decide (c.dataBase ≤ a ∧ a < c.memSize)

/-- `if not CheckBounds(kind, a): raise OutOfBounds(kind, a)` (R55). -/
def check (k : Region) (a : Nat) (s : State) : Res Unit :=
  if checkBounds s.cfg k a then .ok () s else .fatal (s.raise (.outOfBounds k a))

/-- `MemRead(a, 1)` (R11). -/
def memRead (a : Nat) (s : State) : Res Word :=
  if a < s.cfg.memSize then .ok (s.mem.read a) s else .absent a

/-- `MemWrite(a, 1, v)` (R11). -/
def memWrite (a : Nat) (v : Word) (s : State) : Res Unit :=
  if a < s.cfg.memSize then .ok () (s.setWord a v) else .absent a

/-- A checked read (R47, R55, R72). -/
def readChecked (k : Region) (a : Nat) (s : State) : Res Word :=
  (check k a s).andThen fun _ s => memRead a s

/-- A checked write (R47, R55, R72). -/
def writeChecked (k : Region) (a : Nat) (v : Word) (s : State) : Res Unit :=
  (check k a s).andThen fun _ s => memWrite a v s

/-! ### The evaluation stack -/

/-- `Push(v)` (R57): the check precedes both writes, so a refused push changes neither `SP` nor memory. -/
def push (v : Word) (s : State) : Res Unit :=
  (check .stack (s.sp.toNat + 1) s).andThen fun _ s =>
    memWrite (s.sp.toNat + 1) v (s.setSp (BitVec.ofNat 32 (s.sp.toNat + 1)))

/-- `Peek()` (R59). -/
def peek (s : State) : Res Word :=
  readChecked .stack s.sp.toNat s

/-- `Pop()` (R58): checked before it reads (D3); the word read is not erased (R38). -/
def pop (s : State) : Res Word :=
  (readChecked .stack s.sp.toNat s).andThen fun v s => .ok v (s.setSp (s.sp - 1))

/-! ### Fetch -/

/-- Fetch and the read of decode (R62, R103): check `IP + 1`, advance `IP`, read the word there. -/
def fetch (s : State) : Res Word :=
  (check .instruction (s.ip.toNat + 1) s).andThen fun _ s =>
    memRead (s.ip.toNat + 1) (s.setIp (BitVec.ofNat 32 (s.ip.toNat + 1)))

end Sys2Proof.Machine
end

