-- ==== Sys2Proof/Machine/Flags.lean ====
section
/-!
DEFINITION. The machine has no flags and no condition codes (10_state.md R30): no arithmetic instruction records
carry, overflow, sign or zero. What it has in their place is one test, made on a popped value.
-/

namespace Sys2Proof.Machine

/-- The zero test, on the whole 32-bit word: JZ's condition (R147) and DIV's divisor (R135). -/
def isZero (v : Word) : Bool :=
  v == 0

end Sys2Proof.Machine
end

