-- ==== Sys2Proof/Machine/Operands.lean ====
section
/-!
DEFINITION. Operand forms: the operand pair of the binary operations and their order (42_arithmetic.md R130), the
ALU's four functions (R131 to R135), and the two address biases (20_memory.md R56).
-/

namespace Sys2Proof.Machine

/-- The ALU's addition: modulo `2^32` (R131, R132, D4). -/
def aluAdd (a b : Word) : Word :=
  BitVec.ofNat 32 (a.toNat + b.toNat)

/-- The ALU's subtraction: the exact difference of the unsigned operands, modulo `2^32` (R131, R133, D4). -/
def aluSub (a b : Word) : Word :=
  BitVec.ofInt 32 ((a.toNat : Int) - (b.toNat : Int))

/-- The ALU's multiplication: the low 32 bits of the exact product (R131, R134, D22). -/
def aluMul (a b : Word) : Word :=
  BitVec.ofNat 32 (a.toNat * b.toNat)

/-- The ALU's division: `floor(a / b)` of the unsigned operands, used for `b` not 0 only (R135, D5). -/
def aluDiv (a b : Word) : Word :=
  BitVec.ofNat 32 (a.toNat / b.toNat)

/-- `b = Pop()`, then `a = Pop()`: the right operand is the one pushed last (R130). Answers `(a, b)`. -/
def popPair (s : State) : Res (Word × Word) :=
  (pop s).andThen fun b s => (pop s).andThen fun a s => .ok (a, b) s

/-- Pop `b`, pop `a`, push `f a b` (R130). -/
def binary (f : Word → Word → Word) (s : State) : Res Unit :=
  (popPair s).andThen fun ab s => push (f ab.1 ab.2) s

/-- `T' = T + STACK_LIMIT`, exact (R56, R145). -/
def jumpTarget (c : Config) (t : Word) : Nat :=
  t.toNat + c.stackLimit

/-- `A' = A + DATA_BASE`, exact (R56, R155). -/
def dataAddress (c : Config) (a : Word) : Nat :=
  a.toNat + c.dataBase

end Sys2Proof.Machine
end

