-- ==== Sys2Proof/Machine/Arithmetic.lean ====
section
/-!
DEFINITION. The arithmetic instructions ADD, SUB, MUL, DIV (42_arithmetic.md).
-/

namespace Sys2Proof.Machine

/-- ADD (R132). -/
def execAdd (s : State) : Host.Outcome State Fault Refusal :=
  (binary aluAdd s).finish

/-- SUB (R133): the word pushed first is the minuend. -/
def execSub (s : State) : Host.Outcome State Fault Refusal :=
  (binary aluSub s).finish

/-- MUL (R134). -/
def execMul (s : State) : Host.Outcome State Fault Refusal :=
  (binary aluMul s).finish

/-- DIV (R135): the zero test comes after both pops; a zero divisor raises and pushes nothing. -/
def execDiv (s : State) : Host.Outcome State Fault Refusal :=
  ((popPair s).andThen fun ab s =>
    if isZero ab.2 then .fatal (s.raise .divisionByZero) else push (aluDiv ab.1 ab.2) s).finish

end Sys2Proof.Machine
end

