-- ==== Sys2Proof/Machine/Control.lean ====
section
/-!
DEFINITION. Control transfer: JMP and JZ (44_control_transfer.md).
-/

namespace Sys2Proof.Machine

/-- JMP (R146): `IP` takes the biased target, so the next cycle executes the word after it (R148). -/
def execJmp (s : State) : Host.Outcome State Fault Refusal :=
  ((pop s).andThen fun t s =>
    (check .instruction (jumpTarget s.cfg t) s).andThen fun _ s =>
      .ok () (s.setIp (BitVec.ofNat 32 (jumpTarget s.cfg t)))).finish

/-- JZ (R147): the target is checked between the two pops, whether or not the condition is 0. -/
def execJz (s : State) : Host.Outcome State Fault Refusal :=
  ((pop s).andThen fun t s =>
    (check .instruction (jumpTarget s.cfg t) s).andThen fun _ s =>
      (pop s).andThen fun c s =>
        .ok () (if isZero c then s.setIp (BitVec.ofNat 32 (jumpTarget s.cfg t)) else s)).finish

end Sys2Proof.Machine
end

