-- ==== Sys2Proof/Machine/Halt.lean ====
section
/-!
DEFINITION. HALT (41_halt.md).
-/

namespace Sys2Proof.Machine

/-- HALT (R125): `RUN <- 0`; `FAULT` stays as it is, so the machine is Halted. -/
def execHalt (s : State) : Host.Outcome State Fault Refusal :=
  .next s.stop

end Sys2Proof.Machine
end

