-- ==== Sys2Proof/Machine/Literals.lean ====
section
/-!
DEFINITION. The literal words LIT and NLIT (40_literals.md).
-/

namespace Sys2Proof.Machine

/-- LIT (R120): push the payload, zero-extended. -/
def execLit (imm : Payload) (s : State) : Host.Outcome State Fault Refusal :=
  (push (zeroExtend imm) s).finish

/-- NLIT (R121): push the payload, zero-extended; no sign reconstruction (R97). -/
def execNlit (imm : Payload) (s : State) : Host.Outcome State Fault Refusal :=
  (push (zeroExtend imm) s).finish

end Sys2Proof.Machine
end

