-- ==== Sys2Proof/Machine/LoadStore.lean ====
section
/-!
DEFINITION. Program-data access: LOAD and STOR (46_load_store.md).
-/

namespace Sys2Proof.Machine

/-- LOAD (R156). -/
def execLoad (s : State) : Host.Outcome State Fault Refusal :=
  ((pop s).andThen fun a s =>
    (readChecked .programData (dataAddress s.cfg a) s).andThen fun v s => push v s).finish

/-- STOR (R157): both pops come before the check. -/
def execStor (s : State) : Host.Outcome State Fault Refusal :=
  ((pop s).andThen fun a s =>
    (pop s).andThen fun v s => writeChecked .programData (dataAddress s.cfg a) v s).finish

end Sys2Proof.Machine
end

