-- ==== Sys2Proof/Machine/Output.lean ====
section
/-!
DEFINITION. Output: PRN and PRNCHAR (45_output.md), and the decimal text of a word (R151).
-/

namespace Sys2Proof.Machine

/-- The decimal digits of `n` put before `acc`, most significant first, at most `fuel` of them. -/
def digitsBefore : Nat → Nat → List Digit → List Digit
  | 0, _, acc => acc
  | fuel + 1, n, acc =>
    if n < 10 then Fin.ofNat 10 n :: acc else digitsBefore fuel (n / 10) (Fin.ofNat 10 n :: acc)

/-- `dec(v)`: the base-ten numeral of the unsigned word, no sign, no leading zeros, nothing after it (R151, D12). Ten
digits hold every word. -/
def decimal (v : Word) : List Digit :=
  digitsBefore 10 v.toNat []

/-- PRN (R151). -/
def execPrn (s : State) : Host.Outcome State Fault Refusal :=
  ((pop s).andThen fun v s => .ok () (s.emit (.text (decimal v)))).finish

/-- PRNCHAR (R152): the whole word is the code point, unchecked (D13). -/
def execPrnchar (s : State) : Host.Outcome State Fault Refusal :=
  ((pop s).andThen fun v s => .ok () (s.emit (.char v))).finish

end Sys2Proof.Machine
end

