-- ==== Sys2Proof/Machine/StackDup.lean ====
section
/-!
DEFINITION. DUP (43_stack_dup.md).
-/

namespace Sys2Proof.Machine

/-- DUP (R140): peek, then push. -/
def execDup (s : State) : Host.Outcome State Fault Refusal :=
  ((peek s).andThen fun v s => push v s).finish

end Sys2Proof.Machine
end

