-- ==== Sys2Proof/Machine/Reserved.lean ====
section
/-!
DEFINITION. Unknown opcode ids and words of the reserved tag 3 (47_unknown_and_reserved.md).
-/

namespace Sys2Proof.Machine

/-- UNKNOWN (R160): a payload that is no opcode id raises `UnknownOpcode`. -/
def execUnknown (id : Payload) (s : State) : Host.Outcome State Fault Refusal :=
  .next (s.raise (.unknownOpcode id))

/-- The execute rule of a primitive (R98). -/
def execOp (m : Op) (s : State) : Host.Outcome State Fault Refusal :=
  match m with
  | .halt => execHalt s
  | .add => execAdd s
  | .sub => execSub s
  | .mul => execMul s
  | .div => execDiv s
  | .dup => execDup s
  | .jmp => execJmp s
  | .jz => execJz s
  | .prn => execPrn s
  | .prnchar => execPrnchar s
  | .load => execLoad s
  | .stor => execStor s

/-- RSVD3 (R161): the payload is dispatched exactly as for tag 1, and an unknown id raises. The encoding is reserved:
a program must not contain it (`Instr.wellFormed`), and another edition could give it another meaning (log 8). -/
def execRsvd3 (id : Payload) (s : State) : Host.Outcome State Fault Refusal :=
  match lookupOp s.cfg.opid id with
  | some m => execOp m s
  | none => execUnknown id s

end Sys2Proof.Machine
end

