-- ==== Sys2Proof/Machine/Dispatch.lean ====
section
/-!
DEFINITION. Dispatch: the meaning of every instruction, one arm per constructor (30_encoding.md R98).
-/

namespace Sys2Proof.Machine

def exec (i : Instr) (s : State) : Host.Outcome State Fault Refusal :=
  match i with
  | .lit imm => Sys2Proof.Machine.execLit imm s
  | .nlit imm => Sys2Proof.Machine.execNlit imm s
  | .halt => Sys2Proof.Machine.execHalt s
  | .add => Sys2Proof.Machine.execAdd s
  | .sub => Sys2Proof.Machine.execSub s
  | .mul => Sys2Proof.Machine.execMul s
  | .div => Sys2Proof.Machine.execDiv s
  | .dup => Sys2Proof.Machine.execDup s
  | .jmp => Sys2Proof.Machine.execJmp s
  | .jz => Sys2Proof.Machine.execJz s
  | .prn => Sys2Proof.Machine.execPrn s
  | .prnchar => Sys2Proof.Machine.execPrnchar s
  | .load => Sys2Proof.Machine.execLoad s
  | .stor => Sys2Proof.Machine.execStor s
  | .rsvd3 id => Sys2Proof.Machine.execRsvd3 id s

end Sys2Proof.Machine
end

