-- ==== Sys2Proof/Machine/Cycle.lean ====
section
/-!
DEFINITION. One cycle: fetch, decode, execute (30_encoding.md R103).
-/

namespace Sys2Proof.Machine

/-- The execute phase on the word read (R98): the instruction it decodes to, or the `UnknownOpcode` error (R160). -/
def execWord (w : Word) (s : State) : Host.Outcome State Fault Refusal :=
  match decode s.cfg.opid w with
  | .instr i => exec i s
  | .unknownOpcode id => execUnknown id s

/-- The state is Running (R26): the precondition of a cycle (R103). -/
def State.isRunning (s : State) : Bool :=
  s.run && s.fault.isNone

/-- The cycle (R103). A failed fetch changes nothing but `FAULT` and `RUN`; after it, `TR` and `DR` are latched before
the execute phase runs. -/
def cycle (s : State) : Host.Outcome State Fault Refusal :=
  match fetch s with
  | .ok w s => execWord w (s.latch w)
  | .fatal s => .next s
  | .absent a => .fault (.absentAddress a)

/-- A cycle if the state is Running. Halted and Faulted are terminal: no cycle starts and nothing changes (R26, R104,
log 6). -/
def cycleIfRunning (s : State) : Host.Outcome State Fault Refusal :=
  if s.isRunning then cycle s else .next s

/-- Put a word where the next fetch reads: address `IP + 1`. -/
def placeNextWord (s : State) (w : Word) : State :=
  s.setWord (s.ip.toNat + 1) w

end Sys2Proof.Machine
end

