-- ==== Sys2Proof/Machine/Step.lean ====
section
/-!
DEFINITION. The step of the machine (30_encoding.md R103, R104).
-/

namespace Sys2Proof.Machine

/-- One step: one cycle, or nothing in a terminal state. -/
def step (s : State) : Host.Outcome State Fault Refusal :=
  cycleIfRunning s

/-- `s` with the instruction whose bits are `w` where the next fetch reads (log 12). Every instruction is one 32-bit
word (R90). -/
def State.withFetchWord (s : State) (nbits w : Nat) : State :=
  placeNextWord s (BitVec.ofNat 32 (w % 2 ^ nbits))

end Sys2Proof.Machine
end

