-- ==== Sys2Proof/Machine/Transactions.lean ====
section
/-!
DEFINITION. The host's transactions (10_state.md R46, 70_reset_and_hazards.md R200 to R219) on a session: reset,
load, run; and the status view of `FAULT` (60_exceptions.md R174).
-/

namespace Sys2Proof.Machine

/-- A machine as its host drives it: the state, and whether a run has begun since reset, which decides if a load has a
meaning (R204, R219). The second is no register: no instruction and no step reads it (log 13). -/
structure Session where
  machine : State
  runBegun : Bool
  deriving DecidableEq, Repr

/-- reset: a fresh instance of a configuration, on which no run has begun (R46, R200). -/
def Session.fresh (c : Config) : Session :=
  { machine := State.fresh c, runBegun := false }

/-- reset again: a fresh instance of the same configuration (R178, R200). -/
def restart (h : Session) : Session :=
  Session.fresh h.machine.cfg

/-- The session with what a transaction answers as its machine. -/
def Session.withOutcome (h : Session) :
    Host.Outcome State Fault Refusal → Host.Outcome Session Fault Refusal
  | .next s => .next { h with machine := s }
  | .fault r => .fault r
  | .refused r => .refused r

/-- The copy of `Load` from program index `i` on (R201): each destination is checked before its word is written. -/
def loadFrom : Nat → List Word → State → Res Unit
  | _, [], s => .ok () s
  | i, w :: ws, s =>
    (writeChecked .instruction (s.cfg.stackLimit + i) w s).andThen fun _ s => loadFrom (i + 1) ws s

/-- May the host load? Only before the first run (R204, R219), and so before any cycle has advanced `IP` (R37 c). -/
def Session.loadable (h : Session) : Bool :=
  !h.runBegun && h.machine.ip.toNat + 1 == h.machine.cfg.stackLimit

/-- load (R201, R202): copy the words to the Instructions window from its base; a destination outside the window is
the fatal entry, and the words before it stay. Once a run has begun it is refused (R219, log 13). -/
def load (ws : List Word) (h : Session) : Host.Outcome Session Fault Refusal :=
  if h.loadable then h.withOutcome (loadFrom 0 ws h.machine).finish else .refused .loadAfterRun

/-- The run loop under fuel (R104): cycles while Running, at most `k` of them (log 19). -/
def runFor : Nat → State → Host.Outcome State Fault Refusal
  | 0, s => .next s
  | k + 1, s =>
    if s.isRunning then
      match cycle s with
      | .next t => runFor k t
      | .fault r => .fault r
      | .refused r => .refused r
    else .next s

/-- run (R203): the run has begun, also where its loop performs no cycle (R104, R219). -/
def run (k : Nat) (h : Session) : Host.Outcome Session Fault Refusal :=
  ({ h with runBegun := true } : Session).withOutcome (runFor k h.machine)

/-- The register layout of `FAULT` (R174). A field to which the spec gives no meaning in a record is absent: `region`
unless the kind is 1 (R174), and `info` while no fault is latched, which R174 leaves open (DESIGN CHOICE, log 16). -/
structure FaultRegister where
  valid : BitVec 1
  kind : BitVec 2
  region : Option (BitVec 2)
  info : Option (BitVec 33)
  deriving DecidableEq, Repr

/-- The code of a region (R174, D8). -/
def regionCode : Region → BitVec 2
  | .stack => 0
  | .instruction => 1
  | .programData => 2

/-- The host's status view of `FAULT` (R46, R174, D8). While it is `None` the spec gives `valid` and `kind`, and says
nothing of `info`; that the view has no `info` there is the model's choice (DESIGN CHOICE, log 16). -/
def faultRegister : Option FatalError → FaultRegister
  | none => { valid := 0, kind := 0, region := none, info := none }
  | some (.outOfBounds k a) =>
    { valid := 1, kind := 1, region := some (regionCode k), info := some (BitVec.ofNat 33 a) }
  | some (.unknownOpcode id) => { valid := 1, kind := 2, region := none, info := some (id.setWidth 33) }
  | some .divisionByZero => { valid := 1, kind := 3, region := none, info := some 0 }

end Sys2Proof.Machine
end

