-- ==== Sys2Proof/Safety.lean ====
section
/-!
DEFINITION. The terms in which claims are made: the machine states of R26, the invariants of 10_state.md R37, when a
primitive runs without a fatal error (R214), which slots are stale (R38), and how two outcomes compare.
-/

namespace Sys2Proof.Machine

/-- Running (R26). -/
abbrev State.Running (s : State) : Prop :=
  s.run = true ∧ s.fault = none

/-- Halted (R26). -/
abbrev State.Halted (s : State) : Prop :=
  s.run = false ∧ s.fault = none

/-- Faulted (R26). -/
abbrev State.Faulted (s : State) : Prop :=
  s.fault ≠ none

/-- The state an execute phase starts in: a configuration the spec allows (R5, R6), Running (R103), and `SP` in its
range (R37 a). -/
abbrev State.InCycle (s : State) : Prop :=
  s.cfg.WellFormed ∧ s.Running ∧ s.sp.toNat < s.cfg.stackLimit

/-- The word on top of the stack, `MEM[SP]` (R13). -/
abbrev State.top (s : State) : Word :=
  s.mem.read s.sp.toNat

/-- The word below the top, `MEM[SP - 1]` (R13). -/
abbrev State.second (s : State) : Word :=
  s.mem.read (s.sp.toNat - 1)

/-- The address a report may carry is below `2^33` (R27). -/
abbrev FatalError.InRange : FatalError → Prop
  | .outOfBounds _ a => a < 2 ^ 33
  | .unknownOpcode _ => True
  | .divisionByZero => True

/-- The same of the `FAULT` record (R27). -/
abbrev faultInRange : Option FatalError → Prop
  | none => True
  | some e => e.InRange

/-- The invariants of every reachable state: the parameters obey R5 and R6; memory is canonical and holds words that
exist (R50); `SP` and `IP` are in range (R37 a, b); every live stack word has been written (R37 d); address 0 has not
(R37 e); a Faulted machine is not running (R26); the report is in range (R27). -/
structure State.Inv (s : State) : Prop where
  config : s.cfg.WellFormed
  memory : s.mem.wf
  exists_ : ∀ c ∈ s.mem, c.1 < s.cfg.memSize
  sp_range : s.sp.toNat < s.cfg.stackLimit
  ip_low : s.cfg.stackLimit ≤ s.ip.toNat + 1
  ip_high : s.ip.toNat + 1 ≤ s.cfg.dataBase
  live : ∀ a, 0 < a → a ≤ s.sp.toNat → s.mem.lookup a ≠ none
  zero : s.mem.lookup 0 = none
  stopped : s.fault ≠ none → s.run = false
  report : faultInRange s.fault

/-- No cycle has been performed since reset (R40, R201): a load changes neither the registers nor `OUT`. -/
structure State.NoCycleYet (s : State) : Prop where
  ip : s.ip.toNat + 1 = s.cfg.stackLimit
  sp : s.sp = 0
  tr : s.tr = 0
  dr : s.dr = 0
  out : s.out = []

/-- The invariants of every session that the host's transactions reach: those of its machine, and before the first run
no cycle has been performed (R204, R219). -/
structure Session.Inv (h : Session) : Prop where
  machine : h.machine.Inv
  fresh : h.runBegun = false → h.machine.NoCycleYet

/-- The window an address belongs to (R51): half-open, address 0 in the Stack window. -/
abbrev inWindow (c : Config) : Region → Nat → Prop
  | .stack, a => a < c.stackLimit
  | .instruction, a => c.stackLimit ≤ a ∧ a < c.dataBase
  | .programData, a => c.dataBase ≤ a ∧ a < c.memSize

/-- When a primitive runs its effect to the end: enough live words (R214), room for what it pushes (R60), a target or
an address in its window (R145, R155), a divisor that is not 0 (R135). -/
abbrev State.Ready (s : State) : Op → Prop
  | .halt => True
  | .add | .sub | .mul => 2 ≤ s.sp.toNat
  | .div => 2 ≤ s.sp.toNat ∧ s.top ≠ 0
  | .dup => 1 ≤ s.sp.toNat ∧ s.sp.toNat + 1 < s.cfg.stackLimit
  | .jmp => 1 ≤ s.sp.toNat ∧ checkBounds s.cfg .instruction (jumpTarget s.cfg s.top) = true
  | .jz => 2 ≤ s.sp.toNat ∧ checkBounds s.cfg .instruction (jumpTarget s.cfg s.top) = true
  | .prn | .prnchar => 1 ≤ s.sp.toNat
  | .load => 1 ≤ s.sp.toNat ∧ checkBounds s.cfg .programData (dataAddress s.cfg s.top) = true
  | .stor => 2 ≤ s.sp.toNat ∧ checkBounds s.cfg .programData (dataAddress s.cfg s.top) = true

/-- The word of an instruction under a numbering is the one of tag `t` and payload `p`, both ways. -/
abbrev HasWord (ids : OpIds) (i : Instr) (t : Tag) (p : Payload) : Prop :=
  encode ids i = packWord t p ∧ decode ids (packWord t p) = .instr i

/-- Two states alike but for stale slots, the Stack-window words above `SP` (R38). -/
def SameButStale (s t : State) : Prop :=
  t = { s with mem := t.mem } ∧
    ∀ a, ¬(s.sp.toNat < a ∧ a < s.cfg.stackLimit) → t.mem.read a = s.mem.read a

/-- Two outcomes of one kind, their next states related by `R`. -/
def OutcomesRelated (R : State → State → Prop) :
    Host.Outcome State Fault Refusal → Host.Outcome State Fault Refusal → Prop
  | .next s, .next t => R s t
  | .fault q, .fault r => q = r
  | .refused q, .refused r => q = r
  | _, _ => False

/-- Push a list of words in order (R61). -/
def pushAll : List Word → State → Res Unit
  | [], s => .ok () s
  | v :: vs, s => (push v s).andThen fun _ s => pushAll vs s

/-- Pop `n` times; the words in the order they came (R61). -/
def popTimes : Nat → State → Res (List Word)
  | 0, s => .ok [] s
  | n + 1, s => (pop s).andThen fun v s => (popTimes n s).andThen fun vs s => .ok (v :: vs) s

end Sys2Proof.Machine
end

