-- ==== Sys2Proof/Certificates/Slice0/Obligations.lean ====
section
/-!
DEFINITION. The statements about the machine, from the spec's numbered rules. A statement about an execute phase takes
the state R12 describes: `IP` is at the instruction's own word and `TR`, `DR` hold its fields; the statements about
`step` add the fetch and the decode. Where an error is raised, the record in `FAULT` and the cleared `RUN` are the fatal
entry R175 gives (the spec's own decision D7); an underflow is found by the check of R58 (its decision D3); results are
modulo `2^32` by R131 (its decision D4). Log 7 lists these decisions.
-/

open Sys2Proof Sys2Proof.Machine

/-! ### Encoding -/

/-- R92, R93: the two fields of a word, with `w[hi:lo]` as R9 defines it, and the decode phase that refreshes the two
registers with them. -/
def Obligations.ClassifyAndPayloadFields : Prop :=
  (∀ w : Word, (classify w).toNat = w.toNat / 2 ^ 30 ∧ (payload w).toNat = w.toNat % 2 ^ 30) ∧
  ∀ (s : State) (w : Word), s.latch w = { s with tr := classify w, dr := payload w }

/-- The encoder `t * 2^30 + p` inverts the codec, both ways, for all four tags (the spec marks this as derived from the
field rules). -/
def Obligations.EncoderInvertsCodec : Prop :=
  (∀ (t : Tag) (p : Payload), (packWord t p).toNat = t.toNat * 2 ^ 30 + p.toNat ∧
    classify (packWord t p) = t ∧ payload (packWord t p) = p) ∧
  ∀ w : Word, packWord (classify w) (payload w) = w

/-- R95, R98, R99: under every injective numbering, every instruction (the reserved ones too) decodes from its own
word, with every operand at every value. -/
def Obligations.DecodeOfEncode : Prop :=
  ∀ ids : OpIds, ids.Injective → ∀ i : Instr, decode ids (encode ids i) = .instr i

/-- R102: a word that decodes is the word of the instruction it decodes to, so no bit of it is dropped. -/
def Obligations.EncodeOfDecode : Prop :=
  ∀ (ids : OpIds) (w : Word) (i : Instr), decode ids w = .instr i → encode ids i = w

/-- R100, R160: the decoder rejects exactly the tag-1 words whose payload is no opcode id, and names the payload. -/
def Obligations.DecoderRejectsOnlyUnknownIds : Prop :=
  ∀ (ids : OpIds) (w : Word) (id : Payload),
    decode ids w = .unknownOpcode id ↔ classify w = 1 ∧ payload w = id ∧ ∀ m : Op, ids.id m ≠ id

/-- Words written out from the encodings of R99, R120, R121, R161 (default numbering, 95_test_vectors.md V-CODEC). -/
def Obligations.WrittenOutWordsDecode : Prop :=
  decode OpIds.tableOrder 0b00111111111111111111111111111111 = .instr (.lit 0x3FFFFFFF) ∧
  decode OpIds.tableOrder 0b10000000000000000000000000000101 = .instr (.nlit 5) ∧
  decode OpIds.tableOrder 0b01000000000000000000000000000000 = .instr .halt ∧
  decode OpIds.tableOrder 0b01000000000000000000000000000100 = .instr .div ∧
  decode OpIds.tableOrder 0b01000000000000000000000000000111 = .instr .jz ∧
  decode OpIds.tableOrder 0b01000000000000000000000000001011 = .instr .stor ∧
  decode OpIds.tableOrder 0b01000000000000000000000000001100 = .unknownOpcode 12 ∧
  decode OpIds.tableOrder 0b11000000000000000000000000000001 = .instr (.rsvd3 1)

/-! ### The cycle -/

/-- R103: when the next word decodes, a step is the instruction's execute phase on the state in which `IP` has
advanced to the word and `TR`, `DR` hold its fields. -/
def Obligations.StepRunsDecodedInstruction : Prop :=
  ∀ (s : State) (i : Instr), s.cfg.WellFormed → s.Running →
    s.cfg.stackLimit ≤ s.ip.toNat + 1 → s.ip.toNat + 1 < s.cfg.dataBase →
    decode s.cfg.opid (s.mem.read (s.ip.toNat + 1)) = .instr i →
    step s = exec i { s with
      ip := BitVec.ofNat 32 (s.ip.toNat + 1),
      tr := classify (s.mem.read (s.ip.toNat + 1)),
      dr := payload (s.mem.read (s.ip.toNat + 1)) }

/-- R100, R160: a tag-1 word whose payload is no opcode id raises `UnknownOpcode` of the payload; `IP` has advanced to
it, `TR` is 1, `DR` is the payload, and `SP`, memory and `OUT` are as before. -/
def Obligations.StepOnUnknownIdFaults : Prop :=
  ∀ (s : State) (id : Payload), s.cfg.WellFormed → s.Running →
    s.cfg.stackLimit ≤ s.ip.toNat + 1 → s.ip.toNat + 1 < s.cfg.dataBase →
    s.mem.read (s.ip.toNat + 1) = packWord 1 id → (∀ m : Op, s.cfg.opid.id m ≠ id) →
    step s = .next { s with
      ip := BitVec.ofNat 32 (s.ip.toNat + 1), tr := 1, dr := id,
      fault := some (.unknownOpcode id), run := false }

/-- R103, R175, R176: a fetch whose address is outside the Instructions window raises `OutOfBounds` and changes
nothing but `FAULT` and `RUN`. -/
def Obligations.FetchFaultChangesNothingElse : Prop :=
  ∀ s : State, s.Running →
    ¬(s.cfg.stackLimit ≤ s.ip.toNat + 1 ∧ s.ip.toNat + 1 < s.cfg.dataBase) →
    step s = .next { s with fault := some (.outOfBounds .instruction (s.ip.toNat + 1)), run := false }

/-- R104: no cycle happens in a Halted or a Faulted state. That `step` then answers the same state is the model's
choice (log 6). -/
def Obligations.TerminalStatesStay : Prop :=
  ∀ s : State, s.Halted ∨ s.Faulted → step s = .next s

/-- R148: after a JMP of `T` the next step executes the word one past the target, at address `T + STACK_LIMIT + 1`. -/
def Obligations.JumpResumesOnePastTarget : Prop :=
  ∀ (s : State) (i : Instr), s.InCycle → 1 ≤ s.sp.toNat →
    s.top.toNat + s.cfg.stackLimit + 1 < s.cfg.dataBase →
    decode s.cfg.opid (s.mem.read (s.top.toNat + s.cfg.stackLimit + 1)) = .instr i →
    ∃ t, exec .jmp s = .next t ∧
      step t = exec i { s with
        sp := s.sp - 1,
        ip := BitVec.ofNat 32 (s.top.toNat + s.cfg.stackLimit + 1),
        tr := classify (s.mem.read (s.top.toNat + s.cfg.stackLimit + 1)),
        dr := payload (s.mem.read (s.top.toNat + s.cfg.stackLimit + 1)) }

/-! ### The literals and HALT -/

/-- R120: LIT's word; it pushes its payload zero-extended, or the full stack overflows and nothing else changes. -/
def Obligations.LitPushesPayload : Prop :=
  ∀ (s : State) (imm : Payload), s.InCycle →
    HasWord s.cfg.opid (.lit imm) 0 imm ∧
    (s.sp.toNat + 1 < s.cfg.stackLimit → exec (.lit imm) s = .next { s with
      sp := BitVec.ofNat 32 (s.sp.toNat + 1),
      mem := s.mem.write (s.sp.toNat + 1) (BitVec.ofNat 32 imm.toNat) }) ∧
    (s.sp.toNat + 1 = s.cfg.stackLimit → exec (.lit imm) s = .next { s with
      fault := some (.outOfBounds .stack s.cfg.stackLimit), run := false })

/-- R121: NLIT's word; it pushes the same unsigned payload as LIT, with no sign. -/
def Obligations.NlitPushesUnsignedPayload : Prop :=
  ∀ (s : State) (imm : Payload), s.InCycle →
    HasWord s.cfg.opid (.nlit imm) 2 imm ∧
    (s.sp.toNat + 1 < s.cfg.stackLimit → exec (.nlit imm) s = .next { s with
      sp := BitVec.ofNat 32 (s.sp.toNat + 1),
      mem := s.mem.write (s.sp.toNat + 1) (BitVec.ofNat 32 imm.toNat) }) ∧
    (s.sp.toNat + 1 = s.cfg.stackLimit → exec (.nlit imm) s = .next { s with
      fault := some (.outOfBounds .stack s.cfg.stackLimit), run := false })

/-- R125: HALT clears `RUN` and changes nothing else, whatever the stack holds; from Running that is Halted. That an
execute phase has this effect in a state that is not Running too is the model's reading (log 20), and that `step` then
answers the same state again is its choice (log 6). -/
def Obligations.HaltEndsTheRun : Prop :=
  (∀ s : State, s.cfg.WellFormed → HasWord s.cfg.opid .halt 1 s.cfg.opid.halt) ∧
  (∀ s : State, exec .halt s = .next { s with run := false }) ∧
  ∀ s : State, s.Running → ∃ t, exec .halt s = .next t ∧ t.Halted ∧ step t = .next t

/-! ### Arithmetic -/

/-- R132: ADD's word; the sum of the two top words modulo `2^32` replaces them; with fewer than two it underflows,
and an operand popped before stays popped. -/
def Obligations.AddReplacesTwoBySum : Prop :=
  ∀ s : State, s.InCycle →
    HasWord s.cfg.opid .add 1 s.cfg.opid.add ∧
    (2 ≤ s.sp.toNat → exec .add s = .next { s with
      sp := s.sp - 1,
      mem := s.mem.write (s.sp.toNat - 1) (BitVec.ofNat 32 ((s.second.toNat + s.top.toNat) % 2 ^ 32)) }) ∧
    (s.sp.toNat ≤ 1 → exec .add s = .next { s with
      sp := 0, fault := some (.outOfBounds .stack 0), run := false })

/-- R133: SUB's word; the difference, the word pushed first being the minuend, modulo `2^32`; underflow as for ADD. -/
def Obligations.SubReplacesTwoByDifference : Prop :=
  ∀ s : State, s.InCycle →
    HasWord s.cfg.opid .sub 1 s.cfg.opid.sub ∧
    (2 ≤ s.sp.toNat → exec .sub s = .next { s with
      sp := s.sp - 1,
      mem := s.mem.write (s.sp.toNat - 1)
        (BitVec.ofNat 32 (if s.top.toNat ≤ s.second.toNat then s.second.toNat - s.top.toNat
          else s.second.toNat + 2 ^ 32 - s.top.toNat)) }) ∧
    (s.sp.toNat ≤ 1 → exec .sub s = .next { s with
      sp := 0, fault := some (.outOfBounds .stack 0), run := false })

/-- MUL's word; the low 32 bits of the exact product (42_arithmetic.md; that the product is reduced is the spec's own
decision D4, D22); underflow as for ADD. -/
def Obligations.MulReplacesTwoByLowProduct : Prop :=
  ∀ s : State, s.InCycle →
    HasWord s.cfg.opid .mul 1 s.cfg.opid.mul ∧
    (2 ≤ s.sp.toNat → exec .mul s = .next { s with
      sp := s.sp - 1,
      mem := s.mem.write (s.sp.toNat - 1) (BitVec.ofNat 32 ((s.second.toNat * s.top.toNat) % 2 ^ 32)) }) ∧
    (s.sp.toNat ≤ 1 → exec .mul s = .next { s with
      sp := 0, fault := some (.outOfBounds .stack 0), run := false })

/-- DIV's word; the unsigned integer quotient (the spec's own decision D5); a zero divisor raises `DivisionByZero`
after both pops and pushes nothing; with fewer than two words the stack fault comes first, even if the one is 0. -/
def Obligations.DivReplacesTwoByQuotient : Prop :=
  ∀ s : State, s.InCycle →
    HasWord s.cfg.opid .div 1 s.cfg.opid.div ∧
    (2 ≤ s.sp.toNat → s.top ≠ 0 → exec .div s = .next { s with
      sp := s.sp - 1,
      mem := s.mem.write (s.sp.toNat - 1) (BitVec.ofNat 32 (s.second.toNat / s.top.toNat)) }) ∧
    (2 ≤ s.sp.toNat → s.top = 0 → exec .div s = .next { s with
      sp := BitVec.ofNat 32 (s.sp.toNat - 2), fault := some .divisionByZero, run := false }) ∧
    (s.sp.toNat ≤ 1 → exec .div s = .next { s with
      sp := 0, fault := some (.outOfBounds .stack 0), run := false })

/-! ### DUP -/

/-- DUP's word; the top is pushed again; an empty stack raises at the peek (the spec's own decision D3), a full one at
the push, and neither changes `SP` or memory; where the stack is empty and full at once the peek's is the one. -/
def Obligations.DupPushesTopAgain : Prop :=
  ∀ s : State, s.InCycle →
    HasWord s.cfg.opid .dup 1 s.cfg.opid.dup ∧
    (1 ≤ s.sp.toNat → s.sp.toNat + 1 < s.cfg.stackLimit → exec .dup s = .next { s with
      sp := BitVec.ofNat 32 (s.sp.toNat + 1), mem := s.mem.write (s.sp.toNat + 1) s.top }) ∧
    (s.sp.toNat = 0 → exec .dup s = .next { s with
      fault := some (.outOfBounds .stack 0), run := false }) ∧
    (1 ≤ s.sp.toNat → s.sp.toNat + 1 = s.cfg.stackLimit → exec .dup s = .next { s with
      fault := some (.outOfBounds .stack s.cfg.stackLimit), run := false })

/-! ### Control transfer -/

/-- R146: JMP's word; it pops `T` and sets `IP` to `T + STACK_LIMIT`; a target outside the Instructions window raises
with the exact sum, `T` popped and `IP` as it was; an empty stack raises and changes nothing else. -/
def Obligations.JmpSetsBiasedTarget : Prop :=
  ∀ s : State, s.InCycle →
    HasWord s.cfg.opid .jmp 1 s.cfg.opid.jmp ∧
    (1 ≤ s.sp.toNat → s.top.toNat + s.cfg.stackLimit < s.cfg.dataBase → exec .jmp s = .next { s with
      sp := s.sp - 1, ip := BitVec.ofNat 32 (s.top.toNat + s.cfg.stackLimit) }) ∧
    (1 ≤ s.sp.toNat → s.cfg.dataBase ≤ s.top.toNat + s.cfg.stackLimit → exec .jmp s = .next { s with
      sp := s.sp - 1,
      fault := some (.outOfBounds .instruction (s.top.toNat + s.cfg.stackLimit)), run := false }) ∧
    (s.sp.toNat = 0 → exec .jmp s = .next { s with
      fault := some (.outOfBounds .stack 0), run := false })

/-- R147: JZ's word; it pops the target, checks it, pops the condition, and sets `IP` only if the condition is 0. A bad
target is fatal whatever the condition is, and leaves the condition on the stack; with the target alone on the stack a
good target gives the second pop's underflow. -/
def Obligations.JzJumpsOnZero : Prop :=
  ∀ s : State, s.InCycle →
    HasWord s.cfg.opid .jz 1 s.cfg.opid.jz ∧
    (2 ≤ s.sp.toNat → s.top.toNat + s.cfg.stackLimit < s.cfg.dataBase → s.second = 0 →
      exec .jz s = .next { s with
        sp := BitVec.ofNat 32 (s.sp.toNat - 2), ip := BitVec.ofNat 32 (s.top.toNat + s.cfg.stackLimit) }) ∧
    (2 ≤ s.sp.toNat → s.top.toNat + s.cfg.stackLimit < s.cfg.dataBase → s.second ≠ 0 →
      exec .jz s = .next { s with sp := BitVec.ofNat 32 (s.sp.toNat - 2) }) ∧
    (1 ≤ s.sp.toNat → s.cfg.dataBase ≤ s.top.toNat + s.cfg.stackLimit → exec .jz s = .next { s with
      sp := s.sp - 1,
      fault := some (.outOfBounds .instruction (s.top.toNat + s.cfg.stackLimit)), run := false }) ∧
    (s.sp.toNat = 1 → s.top.toNat + s.cfg.stackLimit < s.cfg.dataBase → exec .jz s = .next { s with
      sp := 0, fault := some (.outOfBounds .stack 0), run := false }) ∧
    (s.sp.toNat = 0 → exec .jz s = .next { s with
      fault := some (.outOfBounds .stack 0), run := false })

/-! ### Output -/

/-- PRN's word; it pops a word and appends its decimal text to `OUT` (the text's form is the spec's own decision D12);
an empty stack raises and nothing is emitted. -/
def Obligations.PrnEmitsDecimalText : Prop :=
  ∀ s : State, s.InCycle →
    HasWord s.cfg.opid .prn 1 s.cfg.opid.prn ∧
    (1 ≤ s.sp.toNat → exec .prn s = .next { s with
      sp := s.sp - 1, out := s.out ++ [.text (decimal s.top)] }) ∧
    (s.sp.toNat = 0 → exec .prn s = .next { s with
      fault := some (.outOfBounds .stack 0), run := false })

/-- The decimal text of a word (the spec's own decision D12): its digits read in base ten give the unsigned word, there
is at least one, and a first digit 0 stands alone. That a digit is below ten is its type. -/
def Obligations.DecimalTextIsTheNumeral : Prop :=
  ∀ v : Word, (decimal v).foldl (fun n d => 10 * n + d.val) 0 = v.toNat ∧ decimal v ≠ [] ∧
    ((decimal v).head? = some 0 → decimal v = [0])

/-- PRNCHAR's word; it pops a word and emits it whole as the code point (the spec's own decision D13); an empty stack
raises and nothing is emitted. -/
def Obligations.PrncharEmitsCodePoint : Prop :=
  ∀ s : State, s.InCycle →
    HasWord s.cfg.opid .prnchar 1 s.cfg.opid.prnchar ∧
    (1 ≤ s.sp.toNat → exec .prnchar s = .next { s with
      sp := s.sp - 1, out := s.out ++ [.char s.top] }) ∧
    (s.sp.toNat = 0 → exec .prnchar s = .next { s with
      fault := some (.outOfBounds .stack 0), run := false })

/-! ### Program-data access -/

/-- R156: LOAD's word; the address on top is replaced by the data word at `A + DATA_BASE`, `MEM_INIT` of it if nothing
has written it; an address outside the window raises with the exact sum, popped; an empty stack raises. -/
def Obligations.LoadReplacesAddressByWord : Prop :=
  ∀ s : State, s.InCycle →
    HasWord s.cfg.opid .load 1 s.cfg.opid.load ∧
    (1 ≤ s.sp.toNat → s.top.toNat + s.cfg.dataBase < s.cfg.memSize → exec .load s = .next { s with
      mem := s.mem.write s.sp.toNat (s.mem.read (s.top.toNat + s.cfg.dataBase)) }) ∧
    (s.mem.lookup (s.top.toNat + s.cfg.dataBase) = none →
      s.mem.read (s.top.toNat + s.cfg.dataBase) = Config.memInit (s.top.toNat + s.cfg.dataBase)) ∧
    (1 ≤ s.sp.toNat → s.cfg.memSize ≤ s.top.toNat + s.cfg.dataBase → exec .load s = .next { s with
      sp := s.sp - 1,
      fault := some (.outOfBounds .programData (s.top.toNat + s.cfg.dataBase)), run := false }) ∧
    (s.sp.toNat = 0 → exec .load s = .next { s with
      fault := some (.outOfBounds .stack 0), run := false })

/-- R157: STOR's word; it pops the address, then the value, and stores it at `A + DATA_BASE`; an address outside the
window raises with both popped and nothing written; with fewer than two words the stack fault comes first. -/
def Obligations.StorWritesDataWord : Prop :=
  ∀ s : State, s.InCycle →
    HasWord s.cfg.opid .stor 1 s.cfg.opid.stor ∧
    (2 ≤ s.sp.toNat → s.top.toNat + s.cfg.dataBase < s.cfg.memSize → exec .stor s = .next { s with
      sp := BitVec.ofNat 32 (s.sp.toNat - 2), mem := s.mem.write (s.top.toNat + s.cfg.dataBase) s.second }) ∧
    (2 ≤ s.sp.toNat → s.cfg.memSize ≤ s.top.toNat + s.cfg.dataBase → exec .stor s = .next { s with
      sp := BitVec.ofNat 32 (s.sp.toNat - 2),
      fault := some (.outOfBounds .programData (s.top.toNat + s.cfg.dataBase)), run := false }) ∧
    (s.sp.toNat ≤ 1 → exec .stor s = .next { s with
      sp := 0, fault := some (.outOfBounds .stack 0), run := false })

/-! ### Reserved words -/

/-- A word of the reserved tag 3 runs as the primitive its payload names, and raises `UnknownOpcode` if it names none.
The spec reserves the encoding (D15, C4, U1), and that the model executes it is logged (log 8). -/
def Obligations.ReservedTagDispatchesPayload : Prop :=
  ∀ (s : State) (id : Payload), s.cfg.WellFormed →
    HasWord s.cfg.opid (.rsvd3 id) 3 id ∧
    (∀ m : Op, s.cfg.opid.id m = id → exec (.rsvd3 id) s = exec m.instr s) ∧
    ((∀ m : Op, s.cfg.opid.id m ≠ id) → s.Running → exec (.rsvd3 id) s = .next { s with
      fault := some (.unknownOpcode id), run := false })

/-- Where the primitive that a reserved word names is ready, the word completes: it answers the primitive's own next
state, with no error raised (log 8). -/
def Obligations.ReservedTagCompletes : Prop :=
  ∀ (s : State) (m : Op), s.InCycle → s.Ready m →
    ∃ t, exec (.rsvd3 (s.cfg.opid.id m)) s = .next t ∧ t.fault = none ∧ exec m.instr s = .next t

/-! ### Frames: what an execute phase leaves unchanged, over every state -/

/-- R32, R34: no instruction writes the wired constants, `TR` or `DR` in its execute phase. -/
def Obligations.ExecuteKeepsConstantsAndDecodeRegisters : Prop :=
  ∀ (i : Instr) (s t : State), exec i s = .next t → t.cfg = s.cfg ∧ t.tr = s.tr ∧ t.dr = s.dr

/-- R25, R27, R34: `RUN` and `FAULT` are as before, or the instruction was a HALT, or an error was raised. -/
def Obligations.StatusFrame : Prop :=
  ∀ (i : Instr) (s t : State), exec i s = .next t →
    (t.run = s.run ∧ t.fault = s.fault) ∨
    (t.run = false ∧ t.fault = s.fault ∧
      (i = .halt ∨ ∃ id, i = .rsvd3 id ∧ lookupOp s.cfg.opid id = some .halt)) ∨
    (t.run = false ∧ ∃ e, t.fault = s.fault.or (some e))

/-- HALT, JMP, JZ, PRN, PRNCHAR store nothing: every word of memory is as before. Only the jumps move `IP`, only the
output instructions touch `OUT`, and HALT moves not even `SP`. -/
def Obligations.NonStoringFrame : Prop :=
  ∀ i ∈ [Instr.halt, .jmp, .jz, .prn, .prnchar], ∀ s t : State, exec i s = .next t →
    (∀ a, t.mem.read a = s.mem.read a) ∧
    (i ≠ .jmp → i ≠ .jz → t.ip = s.ip) ∧
    (i ≠ .prn → i ≠ .prnchar → t.out = s.out) ∧
    (i = .halt → t.sp = s.sp)

/-- LIT, NLIT and DUP store one word, at `SP + 1`: every other word, `IP` and `OUT` are as before. -/
def Obligations.PushingFrame : Prop :=
  ∀ (i : Instr) (imm : Payload), i = .lit imm ∨ i = .nlit imm ∨ i = .dup →
    ∀ s t : State, exec i s = .next t →
      (∀ a, a ≠ s.sp.toNat + 1 → t.mem.read a = s.mem.read a) ∧ t.ip = s.ip ∧ t.out = s.out

/-- ADD, SUB, MUL and DIV store one word, at `SP - 1`, where the left operand was: every other word, `IP` and `OUT` are
as before, and the right operand stays as a stale word. -/
def Obligations.ArithmeticFrame : Prop :=
  ∀ i ∈ [Instr.add, .sub, .mul, .div], ∀ s t : State, exec i s = .next t →
    (∀ a, a ≠ s.sp.toNat - 1 → t.mem.read a = s.mem.read a) ∧ t.ip = s.ip ∧ t.out = s.out

/-- LOAD stores one word, at `SP`, where the address was: every other word, the data word read among them, `IP` and
`OUT` are as before. -/
def Obligations.LoadFrame : Prop :=
  ∀ s t : State, exec .load s = .next t →
    (∀ a, a ≠ s.sp.toNat → t.mem.read a = s.mem.read a) ∧ t.ip = s.ip ∧ t.out = s.out

/-- STOR stores one word, at the biased address its top word gives: every other word, `IP` and `OUT` are as before. -/
def Obligations.StorFrame : Prop :=
  ∀ s t : State, exec .stor s = .next t →
    (∀ a, a ≠ dataAddress s.cfg (s.mem.read s.sp.toNat) → t.mem.read a = s.mem.read a) ∧
    t.ip = s.ip ∧ t.out = s.out

/-! ### Reset and the invariants -/

/-- R40, R41: what reset leaves, for every configuration the spec allows; `SP`, `TR` and `DR` by the spec's own
decisions D10, D11. -/
def Obligations.ResetValues : Prop :=
  ∀ c : Config, c.WellFormed →
    (State.fresh c).Running ∧ (State.fresh c).ip.toNat = c.stackLimit - 1 ∧ (State.fresh c).sp = 0 ∧
    (State.fresh c).tr = 0 ∧ (State.fresh c).dr = 0 ∧ (State.fresh c).out = [] ∧ (State.fresh c).cfg = c ∧
    ∀ a, (State.fresh c).mem.read a = Config.memInit a

/-- R37: the invariants hold after reset, in every configuration the spec allows, for the machine and for the host's
session, and so in the one of `State.reset` (log 2). -/
def Obligations.ResetHasInvariant : Prop :=
  (∀ c : Config, c.WellFormed → (State.fresh c).Inv ∧ (Session.fresh c).Inv) ∧ State.reset.Inv

/-- R37 (a), (b), (d), (e), R26, R27: every step keeps the invariants. -/
def Obligations.StepKeepsInvariant : Prop :=
  ∀ s t : State, s.Inv → step s = .next t → t.Inv

/-- R201, R37, R219: loading a program keeps the machine's invariants, whether it fits or not; and in a session with the
invariants a load answers a session with them if no run has begun, and is refused if one has (log 13). -/
def Obligations.LoadingKeepsInvariant : Prop :=
  (∀ (ws : List Word) (h u : Session), h.machine.Inv → load ws h = .next u → u.machine.Inv) ∧
  ∀ (ws : List Word) (h : Session), h.Inv →
    (h.runBegun = false → ∃ u, load ws h = .next u ∧ u.Inv ∧ u.runBegun = false) ∧
    (h.runBegun = true → load ws h = .refused .loadAfterRun)

/-- R102, R170: in every state with the invariants a step answers a next state: the model never stops, and the three
fatal errors of the machine are next states. -/
def Obligations.StepAlwaysAnswers : Prop :=
  ∀ s : State, s.Inv → ∃ t, step s = .next t

/-- R104, R37: a run of any length from a state with the invariants answers a state with the invariants; as the host's
transaction it leaves a session with them in which the run has begun (log 13, log 19). -/
def Obligations.RunKeepsInvariant : Prop :=
  (∀ (k : Nat) (s : State), s.Inv → ∃ t, runFor k s = .next t ∧ t.Inv) ∧
  ∀ (k : Nat) (h : Session), h.Inv → ∃ u, run k h = .next u ∧ u.Inv ∧ u.runBegun = true

/-- R37 (c): after a step of a Running state `IP` is inside the Instructions window, unless the fetch itself failed, at
`DATA_BASE`, with `IP` as it was. -/
def Obligations.IpInWindowAfterFetch : Prop :=
  ∀ s t : State, s.Inv → s.Running → step s = .next t →
    (t.cfg.stackLimit ≤ t.ip.toNat ∧ t.ip.toNat < t.cfg.dataBase) ∨
    (t.fault = some (.outOfBounds .instruction t.cfg.dataBase) ∧ t.ip = s.ip)

/-! ### Rules of the whole machine -/

/-- R63: no step changes a word of the Instructions window, in any state of a configuration the spec allows. -/
def Obligations.InstructionsAreReadOnly : Prop :=
  ∀ s t : State, s.cfg.WellFormed → step s = .next t →
    ∀ a, s.cfg.stackLimit ≤ a → a < s.cfg.dataBase → t.mem.read a = s.mem.read a

/-- R53: a step that changes a Program-data word executed a STOR, or a reserved word that names it. -/
def Obligations.OnlyStorChangesData : Prop :=
  ∀ (s t : State) (a : Nat), s.cfg.WellFormed → step s = .next t →
    s.cfg.dataBase ≤ a → t.mem.read a ≠ s.mem.read a →
    decode s.cfg.opid (s.mem.read (s.ip.toNat + 1)) = .instr .stor ∨
    ∃ id, decode s.cfg.opid (s.mem.read (s.ip.toNat + 1)) = .instr (.rsvd3 id) ∧
      lookupOp s.cfg.opid id = some .stor

/-- R28: `OUT` is append-only, and a step appends at most one event. -/
def Obligations.OutputOnlyGrows : Prop :=
  ∀ s t : State, step s = .next t → ∃ es, t.out = s.out ++ es ∧ es.length ≤ 1

/-- R25, R27: `FAULT` is write-once and nothing but reset sets `RUN`; a new error leaves `RUN` clear. So for an execute
phase, in states where no cycle starts too (log 20), and for a step, its fetch fault and unknown ids among its errors. -/
def Obligations.FaultIsWrittenOnce : Prop :=
  (∀ (i : Instr) (s t : State), exec i s = .next t →
    (s.fault ≠ none → t.fault = s.fault) ∧ (s.run = false → t.run = false) ∧
    (t.fault ≠ s.fault → t.run = false)) ∧
  ∀ s t : State, step s = .next t →
    (s.fault ≠ none → t.fault = s.fault) ∧ (s.run = false → t.run = false) ∧
    (t.fault ≠ s.fault → t.run = false)

/-- R171: the addresses a step can report: 0 or `STACK_LIMIT` for the Stack, and for the other windows from the
window's upper bound to the largest biased sum. -/
def Obligations.ReportedAddresses : Prop :=
  ∀ (s t : State) (k : Region) (a : Nat), s.Inv → s.Running → step s = .next t →
    t.fault = some (.outOfBounds k a) →
    match k with
    | .stack => a = 0 ∨ a = s.cfg.stackLimit
    | .instruction => s.cfg.dataBase ≤ a ∧ a ≤ 2 ^ 32 - 1 + s.cfg.stackLimit
    | .programData => s.cfg.memSize ≤ a ∧ a ≤ 2 ^ 32 - 1 + s.cfg.dataBase

/-- R214: a primitive always answers a next state, and raises an error exactly when it is not ready. -/
def Obligations.ErrorExactlyWhenNotReady : Prop :=
  ∀ (s : State) (m : Op), s.InCycle →
    ∃ t, exec m.instr s = .next t ∧ (t.fault = none ↔ s.Ready m)

/-- R38: stale slots cannot be observed: two states alike but for the Stack-window words above `SP` step to outcomes
alike but for them. -/
def Obligations.StaleSlotsAreUnobservable : Prop :=
  ∀ s t : State, s.cfg.WellFormed → SameButStale s t → OutcomesRelated SameButStale (step s) (step t)

/-- R23, R24: `TR` and `DR` hold no state between steps: where the fetch succeeds, what they held makes no
difference. -/
def Obligations.DecodeRegistersAreScratch : Prop :=
  ∀ (s : State) (t : Tag) (d : Payload), s.cfg.WellFormed → s.Running →
    s.cfg.stackLimit ≤ s.ip.toNat + 1 → s.ip.toNat + 1 < s.cfg.dataBase →
    step { s with tr := t, dr := d } = step s

/-- R108: bit 31 of a word does not affect its execute phase. -/
def Obligations.TopBitDoesNotAffectExecution : Prop :=
  ∀ (w : Word) (s : State), execWord (w ^^^ 0x80000000) s = execWord w s

/-! ### Windows, bounds checker, stack accessors -/

/-- R54: when an address passes the check for a window. -/
def Obligations.CheckBoundsRanges : Prop :=
  ∀ (c : Config) (a : Nat),
    (checkBounds c .stack a = true ↔ 0 < a ∧ a < c.stackLimit) ∧
    (checkBounds c .instruction a = true ↔ c.stackLimit ≤ a ∧ a < c.dataBase) ∧
    (checkBounds c .programData a = true ↔ c.dataBase ≤ a ∧ a < c.memSize)

/-- R52: every address that exists is in exactly one window; an address that passes a check exists, is in that window,
and passes no other check. -/
def Obligations.WindowsPartitionMemory : Prop :=
  ∀ (c : Config) (a : Nat), c.WellFormed →
    (a < c.memSize → ∃ k, inWindow c k a ∧ ∀ k', inWindow c k' a → k' = k) ∧
    ∀ k, checkBounds c k a = true →
      a < c.memSize ∧ inWindow c k a ∧ ∀ k', checkBounds c k' a = true → k' = k

/-- R57: `Push` in every state of a configuration the spec allows: the check comes before both writes. -/
def Obligations.PushChecksThenWrites : Prop :=
  ∀ (s : State) (v : Word), s.cfg.WellFormed → s.Running →
    (s.sp.toNat + 1 < s.cfg.stackLimit → push v s = .ok () { s with
      sp := BitVec.ofNat 32 (s.sp.toNat + 1), mem := s.mem.write (s.sp.toNat + 1) v }) ∧
    (s.cfg.stackLimit ≤ s.sp.toNat + 1 → push v s = .fatal { s with
      fault := some (.outOfBounds .stack (s.sp.toNat + 1)), run := false })

/-- `Pop` and `Peek` check `SP` before they read (the spec's own decision D3); a refused one changes nothing but the
report, and neither erases the word. -/
def Obligations.PopAndPeekCheckFirst : Prop :=
  ∀ s : State, s.cfg.WellFormed → s.Running →
    (0 < s.sp.toNat → s.sp.toNat < s.cfg.stackLimit →
      pop s = .ok s.top { s with sp := s.sp - 1 } ∧ peek s = .ok s.top s) ∧
    (s.sp.toNat = 0 ∨ s.cfg.stackLimit ≤ s.sp.toNat →
      pop s = .fatal { s with fault := some (.outOfBounds .stack s.sp.toNat), run := false } ∧
      peek s = .fatal { s with fault := some (.outOfBounds .stack s.sp.toNat), run := false })

/-- R61: pushing words in order, as many as fit, then popping as many yields them in the reverse order and leaves `SP`
where it was. -/
def Obligations.StackIsLastInFirstOut : Prop :=
  ∀ (s : State) (vs : List Word), s.InCycle → s.sp.toNat + vs.length < s.cfg.stackLimit →
    ∃ t u, pushAll vs s = .ok () t ∧ popTimes vs.length t = .ok vs.reverse u ∧ u.sp = s.sp

/-! ### Host transactions -/

/-- R201, R202: before the first run `Load` copies the words to consecutive addresses from `STACK_LIMIT`, as many as
the window holds, and changes nothing else; a longer sequence is the fatal entry at `DATA_BASE`, and the words before
it stay (both by the spec's own decision D16, log 7). -/
def Obligations.LoadCopiesProgram : Prop :=
  ∀ (ws : List Word) (h : Session) (s : State), h.machine = s → h.runBegun = false →
    s.cfg.WellFormed → s.Running → s.ip.toNat + 1 = s.cfg.stackLimit →
    ∃ t, load ws h = .next { h with machine := t } ∧
      t = { s with mem := t.mem, run := t.run, fault := t.fault } ∧
      (∀ (i : Nat) (hi : i < ws.length), s.cfg.stackLimit + i < s.cfg.dataBase →
        t.mem.read (s.cfg.stackLimit + i) = ws[i]) ∧
      (∀ a, ¬(s.cfg.stackLimit ≤ a ∧ a < s.cfg.stackLimit + ws.length ∧ a < s.cfg.dataBase) →
        t.mem.read a = s.mem.read a) ∧
      (ws.length ≤ s.cfg.dataBase - s.cfg.stackLimit → t.Running) ∧
      (s.cfg.dataBase - s.cfg.stackLimit < ws.length →
        t.run = false ∧ t.fault = some (.outOfBounds .instruction s.cfg.dataBase))

/-- R219: once a run has begun, also one that performed no cycle or whose first fetch failed, `Load` has no meaning; the
model refuses it (log 13). So too where a cycle has advanced `IP` into the window. -/
def Obligations.LoadAfterRunIsRefused : Prop :=
  (∀ (ws : List Word) (h : Session), h.runBegun = true ∨ h.machine.cfg.stackLimit ≤ h.machine.ip.toNat →
    load ws h = .refused .loadAfterRun) ∧
  ∀ (k : Nat) (h u : Session), run k h = .next u → ∀ ws, load ws u = .refused .loadAfterRun

/-- R104, R219: a run that has ended stays ended: once the state is not Running, more fuel changes nothing, and a second
run performs no cycle. -/
def Obligations.EndedRunIsFinal : Prop :=
  (∀ (k j : Nat) (s t : State), runFor k s = .next t → ¬t.Running → runFor (k + j) s = .next t) ∧
  ∀ (k j : Nat) (h u : Session), run k h = .next u → ¬u.machine.Running → run j u = .next u

/-- The register layout of `FAULT` (the spec's own decision D8) tells any two records apart whose addresses are in
range. -/
def Obligations.FaultRegisterTellsErrorsApart : Prop :=
  ∀ e f : Option FatalError, faultInRange e → faultInRange f → faultRegister e = faultRegister f → e = f
end

