-- ==== Sys2Proof/Laws/Decode.lean ====
section
/-!
SUPPORT. The laws of the codec and of the opcode map's lookup (30_encoding.md R92 to R98).
-/

namespace Sys2Proof

@[simp] theorem classify_packWord (t : Tag) (p : Payload) : classify (packWord t p) = t := by
  apply BitVec.eq_of_getElem_eq
  intro i hi
  have h : i < 2 := hi
  simp only [classify, packWord, BitVec.getElem_extractLsb', BitVec.getLsbD_append]
  rw [if_neg (by omega)]
  simp only [Nat.add_sub_cancel_left, BitVec.getLsbD_eq_getElem hi]

@[simp] theorem payload_packWord (t : Tag) (p : Payload) : payload (packWord t p) = p := by
  apply BitVec.eq_of_getElem_eq
  intro i hi
  simp only [payload, packWord, BitVec.getElem_extractLsb', BitVec.getLsbD_append]
  rw [if_pos (by omega)]
  simp only [Nat.zero_add, BitVec.getLsbD_eq_getElem hi]

theorem packWord_classify_payload (w : Word) : packWord (classify w) (payload w) = w := by
  apply BitVec.eq_of_getLsbD_eq
  intro i hi
  simp only [classify, payload, packWord, BitVec.getLsbD_append, BitVec.getLsbD_extractLsb']
  by_cases h : i < 30
  · simp [h]
  · have h₁ : i - 30 < 2 := by omega
    have h₂ : 30 + (i - 30) = i := by omega
    simp [h, h₁, h₂]

/-- There are four tags. -/
theorem tag_cases (t : Tag) : t = 0 ∨ t = 1 ∨ t = 2 ∨ t = 3 := by
  revert t; decide

theorem OpIds.mem_all (m : Op) : m ∈ Op.all := by
  cases m <;> decide

/-- `OPID` injective, as a statement about two mnemonics. -/
theorem OpIds.eq_of_id_eq {ids : OpIds} (h : ids.Injective) {m n : Op} (e : ids.id m = ids.id n) : m = n :=
  List.inj_on_of_nodup_map h (OpIds.mem_all m) (OpIds.mem_all n) e

/-- What the lookup finds has the id looked for. -/
theorem id_of_lookupOp {ids : OpIds} {id : Payload} {m : Op} (h : lookupOp ids id = some m) : ids.id m = id := by
  simpa using List.find?_some h

/-- Under an injective numbering the lookup of an id finds its mnemonic. -/
theorem lookupOp_id {ids : OpIds} (h : ids.Injective) (m : Op) : lookupOp ids (ids.id m) = some m := by
  cases e : lookupOp ids (ids.id m) with
  | none => exact absurd (List.find?_eq_none.mp e m (OpIds.mem_all m)) (by simp)
  | some n => exact congrArg some (OpIds.eq_of_id_eq h (id_of_lookupOp e))

/-- The lookup fails on exactly the payloads that are no opcode id. -/
theorem lookupOp_eq_none {ids : OpIds} {id : Payload} : lookupOp ids id = none ↔ ∀ m, ids.id m ≠ id := by
  simp only [lookupOp, List.find?_eq_none, beq_iff_eq]
  exact ⟨fun h m => h m (OpIds.mem_all m), fun h m _ => h m⟩

theorem default_numbering_injective : OpIds.tableOrder.Injective := by decide

theorem config_ref_wellFormed : Config.ref.WellFormed := by decide

theorem config_tiny_wellFormed : Config.tiny.WellFormed := by decide

end Sys2Proof
end

