-- ==== Sys2Proof/Laws/Memory.lean ====
section
/-!
SUPPORT. The laws of memory: a read after a write (20_memory.md R69 c), and that every memory operation keeps the
canonical form.
-/

namespace Sys2Proof.Machine

theorem Memory.lookup_nil (a : Nat) : Memory.lookup [] a = none := rfl

theorem Memory.lookup_cons (b : Nat) (u : Word) (m : Memory) (a : Nat) :
    Memory.lookup ((b, u) :: m) a = if a = b then some u else Memory.lookup m a := rfl

/-- After a write, the written address holds the word and every other address is as before. -/
theorem Memory.lookup_write (m : Memory) (a b : Nat) (v : Word) :
    (m.write a v).lookup b = if b = a then some v else m.lookup b := by
  induction m with
  | nil => rfl
  | cons c m ih =>
    obtain ⟨k, u⟩ := c
    unfold Memory.write
    split_ifs with h₁ h₂ <;> simp only [Memory.lookup, ih] <;> split_ifs <;> first | rfl | omega

/-- A word nothing has written reads as `MEM_INIT` of its address (R41). -/
theorem Memory.read_of_lookup_none {m : Memory} {a : Nat} (h : m.lookup a = none) :
    m.read a = Config.memInit a := by
  simp [Memory.read, h]

theorem Memory.read_write (m : Memory) (a b : Nat) (v : Word) :
    (m.write a v).read b = if b = a then v else m.read b := by
  simp only [Memory.read, Memory.lookup_write]
  split_ifs <;> rfl

@[simp] theorem Memory.read_write_same (m : Memory) (a : Nat) (v : Word) : (m.write a v).read a = v := by
  simp [Memory.read_write]

theorem Memory.read_write_other (m : Memory) {a b : Nat} (v : Word) (h : b ≠ a) :
    (m.write a v).read b = m.read b := by
  simp [Memory.read_write, h]

/-- A write lists the written address and no other new one. -/
theorem Memory.mem_write {m : Memory} {a : Nat} {v : Word} {c : Nat × Word} (h : c ∈ m.write a v) :
    c = (a, v) ∨ c ∈ m := by
  induction m with
  | nil => simpa [Memory.write] using h
  | cons d m ih =>
    obtain ⟨k, u⟩ := d
    unfold Memory.write at h
    split_ifs at h
    · simpa using h
    · rcases List.mem_cons.mp h with h | h
      · exact .inl h
      · exact .inr (List.mem_cons_of_mem _ h)
    · rcases List.mem_cons.mp h with h | h
      · exact .inr (h ▸ List.mem_cons_self)
      · exact (ih h).imp_right (List.mem_cons_of_mem _)

/-- Every memory operation keeps the canonical form; `write` is the only one that changes memory. -/
theorem Memory.write_wf {m : Memory} (h : m.wf) (a : Nat) (v : Word) : (m.write a v).wf := by
  induction m with
  | nil => simp [Memory.write, Memory.wf]
  | cons d m ih =>
    obtain ⟨k, u⟩ := d
    have hm : Memory.wf m := (List.pairwise_cons.mp h).2
    have hk : ∀ c ∈ m, k < c.1 := (List.pairwise_cons.mp h).1
    unfold Memory.write
    split_ifs with h₁ h₂
    · refine List.pairwise_cons.mpr ⟨fun c hc => ?_, h⟩
      rcases List.mem_cons.mp hc with rfl | hc
      · exact h₁
      · exact h₁.trans (hk c hc)
    · subst h₂
      exact List.pairwise_cons.mpr ⟨hk, hm⟩
    · refine List.pairwise_cons.mpr ⟨fun c hc => ?_, ih hm⟩
      rcases Memory.mem_write hc with rfl | hc
      · exact (by omega : k < a)
      · exact hk c hc

/-- Memory at reset is canonical. -/
theorem Memory.reset_wf : State.reset.mem.wf :=
  List.Pairwise.nil

end Sys2Proof.Machine
end

