-- ==== Sys2Proof/Laws/State.lean ====
section
/-!
SUPPORT. What each update of the state does to each field: one lemma a field, so that no proof unfolds an update.
-/

namespace Sys2Proof.Machine

@[simp] theorem setSp_cfg (s : State) (v : Word) : (s.setSp v).cfg = s.cfg := rfl
@[simp] theorem setSp_mem (s : State) (v : Word) : (s.setSp v).mem = s.mem := rfl
@[simp] theorem setSp_sp (s : State) (v : Word) : (s.setSp v).sp = v := rfl
@[simp] theorem setSp_ip (s : State) (v : Word) : (s.setSp v).ip = s.ip := rfl
@[simp] theorem setSp_tr (s : State) (v : Word) : (s.setSp v).tr = s.tr := rfl
@[simp] theorem setSp_dr (s : State) (v : Word) : (s.setSp v).dr = s.dr := rfl
@[simp] theorem setSp_run (s : State) (v : Word) : (s.setSp v).run = s.run := rfl
@[simp] theorem setSp_fault (s : State) (v : Word) : (s.setSp v).fault = s.fault := rfl
@[simp] theorem setSp_out (s : State) (v : Word) : (s.setSp v).out = s.out := rfl

@[simp] theorem setIp_cfg (s : State) (v : Word) : (s.setIp v).cfg = s.cfg := rfl
@[simp] theorem setIp_mem (s : State) (v : Word) : (s.setIp v).mem = s.mem := rfl
@[simp] theorem setIp_sp (s : State) (v : Word) : (s.setIp v).sp = s.sp := rfl
@[simp] theorem setIp_ip (s : State) (v : Word) : (s.setIp v).ip = v := rfl
@[simp] theorem setIp_tr (s : State) (v : Word) : (s.setIp v).tr = s.tr := rfl
@[simp] theorem setIp_dr (s : State) (v : Word) : (s.setIp v).dr = s.dr := rfl
@[simp] theorem setIp_run (s : State) (v : Word) : (s.setIp v).run = s.run := rfl
@[simp] theorem setIp_fault (s : State) (v : Word) : (s.setIp v).fault = s.fault := rfl
@[simp] theorem setIp_out (s : State) (v : Word) : (s.setIp v).out = s.out := rfl

@[simp] theorem setWord_cfg (s : State) (a : Nat) (v : Word) : (s.setWord a v).cfg = s.cfg := rfl
@[simp] theorem setWord_mem (s : State) (a : Nat) (v : Word) : (s.setWord a v).mem = s.mem.write a v := rfl
@[simp] theorem setWord_sp (s : State) (a : Nat) (v : Word) : (s.setWord a v).sp = s.sp := rfl
@[simp] theorem setWord_ip (s : State) (a : Nat) (v : Word) : (s.setWord a v).ip = s.ip := rfl
@[simp] theorem setWord_tr (s : State) (a : Nat) (v : Word) : (s.setWord a v).tr = s.tr := rfl
@[simp] theorem setWord_dr (s : State) (a : Nat) (v : Word) : (s.setWord a v).dr = s.dr := rfl
@[simp] theorem setWord_run (s : State) (a : Nat) (v : Word) : (s.setWord a v).run = s.run := rfl
@[simp] theorem setWord_fault (s : State) (a : Nat) (v : Word) : (s.setWord a v).fault = s.fault := rfl
@[simp] theorem setWord_out (s : State) (a : Nat) (v : Word) : (s.setWord a v).out = s.out := rfl

@[simp] theorem latch_cfg (s : State) (w : Word) : (s.latch w).cfg = s.cfg := rfl
@[simp] theorem latch_mem (s : State) (w : Word) : (s.latch w).mem = s.mem := rfl
@[simp] theorem latch_sp (s : State) (w : Word) : (s.latch w).sp = s.sp := rfl
@[simp] theorem latch_ip (s : State) (w : Word) : (s.latch w).ip = s.ip := rfl
@[simp] theorem latch_tr (s : State) (w : Word) : (s.latch w).tr = classify w := rfl
@[simp] theorem latch_dr (s : State) (w : Word) : (s.latch w).dr = payload w := rfl
@[simp] theorem latch_run (s : State) (w : Word) : (s.latch w).run = s.run := rfl
@[simp] theorem latch_fault (s : State) (w : Word) : (s.latch w).fault = s.fault := rfl
@[simp] theorem latch_out (s : State) (w : Word) : (s.latch w).out = s.out := rfl

@[simp] theorem emit_cfg (s : State) (e : OutEvent) : (s.emit e).cfg = s.cfg := rfl
@[simp] theorem emit_mem (s : State) (e : OutEvent) : (s.emit e).mem = s.mem := rfl
@[simp] theorem emit_sp (s : State) (e : OutEvent) : (s.emit e).sp = s.sp := rfl
@[simp] theorem emit_ip (s : State) (e : OutEvent) : (s.emit e).ip = s.ip := rfl
@[simp] theorem emit_tr (s : State) (e : OutEvent) : (s.emit e).tr = s.tr := rfl
@[simp] theorem emit_dr (s : State) (e : OutEvent) : (s.emit e).dr = s.dr := rfl
@[simp] theorem emit_run (s : State) (e : OutEvent) : (s.emit e).run = s.run := rfl
@[simp] theorem emit_fault (s : State) (e : OutEvent) : (s.emit e).fault = s.fault := rfl
@[simp] theorem emit_out (s : State) (e : OutEvent) : (s.emit e).out = s.out ++ [e] := rfl

@[simp] theorem stop_cfg (s : State) : s.stop.cfg = s.cfg := rfl
@[simp] theorem stop_mem (s : State) : s.stop.mem = s.mem := rfl
@[simp] theorem stop_sp (s : State) : s.stop.sp = s.sp := rfl
@[simp] theorem stop_ip (s : State) : s.stop.ip = s.ip := rfl
@[simp] theorem stop_tr (s : State) : s.stop.tr = s.tr := rfl
@[simp] theorem stop_dr (s : State) : s.stop.dr = s.dr := rfl
@[simp] theorem stop_run (s : State) : s.stop.run = false := rfl
@[simp] theorem stop_fault (s : State) : s.stop.fault = s.fault := rfl
@[simp] theorem stop_out (s : State) : s.stop.out = s.out := rfl

@[simp] theorem raise_cfg (s : State) (e : FatalError) : (s.raise e).cfg = s.cfg := rfl
@[simp] theorem raise_mem (s : State) (e : FatalError) : (s.raise e).mem = s.mem := rfl
@[simp] theorem raise_sp (s : State) (e : FatalError) : (s.raise e).sp = s.sp := rfl
@[simp] theorem raise_ip (s : State) (e : FatalError) : (s.raise e).ip = s.ip := rfl
@[simp] theorem raise_tr (s : State) (e : FatalError) : (s.raise e).tr = s.tr := rfl
@[simp] theorem raise_dr (s : State) (e : FatalError) : (s.raise e).dr = s.dr := rfl
@[simp] theorem raise_run (s : State) (e : FatalError) : (s.raise e).run = false := rfl
@[simp] theorem raise_fault (s : State) (e : FatalError) : (s.raise e).fault = s.fault.or (some e) := rfl
@[simp] theorem raise_out (s : State) (e : FatalError) : (s.raise e).out = s.out := rfl

/-! Reset, field by field (R40, R41). -/

@[simp] theorem fresh_cfg (c : Config) : (State.fresh c).cfg = c := rfl
@[simp] theorem fresh_mem (c : Config) : (State.fresh c).mem = [] := rfl
@[simp] theorem fresh_sp (c : Config) : (State.fresh c).sp = 0 := rfl
@[simp] theorem fresh_ip (c : Config) : (State.fresh c).ip = BitVec.ofNat 32 (c.stackLimit - 1) := rfl
@[simp] theorem fresh_tr (c : Config) : (State.fresh c).tr = 0 := rfl
@[simp] theorem fresh_dr (c : Config) : (State.fresh c).dr = 0 := rfl
@[simp] theorem fresh_run (c : Config) : (State.fresh c).run = true := rfl
@[simp] theorem fresh_fault (c : Config) : (State.fresh c).fault = none := rfl
@[simp] theorem fresh_out (c : Config) : (State.fresh c).out = [] := rfl

end Sys2Proof.Machine
end

