-- ==== Sys2Proof/Laws/Ops.lean ====
section
/-!
SUPPORT. One lemma a shared operation, saying everything it can do (20_memory.md R54 to R59, 30_encoding.md R103).
-/

namespace Sys2Proof.Machine

variable {α β : Type}

@[simp] theorem andThen_ok (v : α) (s : State) (k : α → State → Res β) : (Res.ok v s).andThen k = k v s := rfl

@[simp] theorem andThen_fatal (s : State) (k : α → State → Res β) : (Res.fatal s).andThen k = .fatal s := rfl

@[simp] theorem andThen_absent (a : Nat) (k : α → State → Res β) : (Res.absent a).andThen k = .absent a := rfl

@[simp] theorem finish_ok (u : Unit) (s : State) : (Res.ok u s).finish = .next s := rfl

@[simp] theorem finish_fatal (s : State) : (Res.fatal s).finish = .next s := rfl

@[simp] theorem finish_absent (a : Nat) : (Res.absent a).finish = .fault (.absentAddress a) := rfl

@[simp] theorem andThen_ite (p : Prop) [Decidable p] (r q : Res α) (k : α → State → Res β) :
    (if p then r else q).andThen k = if p then r.andThen k else q.andThen k := by
  split_ifs <;> rfl

@[simp] theorem finish_ite (p : Prop) [Decidable p] (r q : Res Unit) :
    (if p then r else q).finish = if p then r.finish else q.finish := by
  split_ifs <;> rfl

/-- A cycle part that ends in a next state ended normally or in a raised error. -/
theorem finish_eq_next {r : Res Unit} {t : State} (h : r.finish = .next t) : r = .ok () t ∨ r = .fatal t := by
  cases r with
  | ok _ s => exact .inl (by simpa only [finish_ok, Host.Outcome.next.injEq, Res.ok.injEq, true_and] using h)
  | fatal s => exact .inr (by simpa only [finish_fatal, Host.Outcome.next.injEq, Res.fatal.injEq] using h)
  | absent a => simp at h

@[simp] theorem checkBounds_stack (c : Config) (a : Nat) :
    checkBounds c .stack a = true ↔ 0 < a ∧ a < c.stackLimit := by simp [checkBounds]

@[simp] theorem checkBounds_instruction (c : Config) (a : Nat) :
    checkBounds c .instruction a = true ↔ c.stackLimit ≤ a ∧ a < c.dataBase := by simp [checkBounds]

@[simp] theorem checkBounds_programData (c : Config) (a : Nat) :
    checkBounds c .programData a = true ↔ c.dataBase ≤ a ∧ a < c.memSize := by simp [checkBounds]

/-- In a configuration the spec allows, an address that passes a check exists. -/
theorem checkBounds_lt_memSize {c : Config} (h : c.WellFormed) {k : Region} {a : Nat}
    (hc : checkBounds c k a = true) : a < c.memSize := by
  obtain ⟨_, h₂, h₃, _⟩ := h
  cases k <;> simp at hc <;> omega

theorem check_eq (k : Region) (a : Nat) (s : State) :
    check k a s = if checkBounds s.cfg k a = true then .ok () s else .fatal (s.raise (.outOfBounds k a)) := rfl

/-- A checked read in a well-formed configuration: the word, or the fatal error. -/
theorem readChecked_eq {s : State} (h : s.cfg.WellFormed) (k : Region) (a : Nat) :
    readChecked k a s =
      if checkBounds s.cfg k a = true then .ok (s.mem.read a) s else .fatal (s.raise (.outOfBounds k a)) := by
  simp only [readChecked, check_eq, andThen_ite, andThen_ok, andThen_fatal]
  split_ifs with hc
  · simp [memRead, checkBounds_lt_memSize h hc]
  · rfl

/-- A checked write in a well-formed configuration. -/
theorem writeChecked_eq {s : State} (h : s.cfg.WellFormed) (k : Region) (a : Nat) (v : Word) :
    writeChecked k a v s =
      if checkBounds s.cfg k a = true then .ok () (s.setWord a v) else .fatal (s.raise (.outOfBounds k a)) := by
  simp only [writeChecked, check_eq, andThen_ite, andThen_ok, andThen_fatal]
  split_ifs with hc
  · simp [memWrite, checkBounds_lt_memSize h hc]
  · rfl

/-- A push in a well-formed configuration: the word lands one above `SP`, or the stack overflows. -/
theorem push_eq {s : State} (h : s.cfg.WellFormed) (v : Word) :
    push v s =
      if s.sp.toNat + 1 < s.cfg.stackLimit then
        .ok () ((s.setSp (BitVec.ofNat 32 (s.sp.toNat + 1))).setWord (s.sp.toNat + 1) v)
      else .fatal (s.raise (.outOfBounds .stack (s.sp.toNat + 1))) := by
  obtain ⟨_, h₂, h₃, _⟩ := h
  simp only [push, check_eq, andThen_ite, andThen_ok, andThen_fatal, checkBounds_stack, Nat.zero_lt_succ, true_and]
  split_ifs with hc
  · exact if_pos (show s.sp.toNat + 1 < s.cfg.memSize by omega)
  · rfl

/-- A peek in a well-formed configuration: the top word, or the fatal error. -/
theorem peek_eq {s : State} (h : s.cfg.WellFormed) :
    peek s =
      if 0 < s.sp.toNat ∧ s.sp.toNat < s.cfg.stackLimit then .ok (s.mem.read s.sp.toNat) s
      else .fatal (s.raise (.outOfBounds .stack s.sp.toNat)) := by
  simp only [peek, readChecked_eq h, checkBounds_stack]

/-- A pop in a well-formed configuration: the top word and `SP` one lower, or the fatal error. -/
theorem pop_eq {s : State} (h : s.cfg.WellFormed) :
    pop s =
      if 0 < s.sp.toNat ∧ s.sp.toNat < s.cfg.stackLimit then .ok (s.mem.read s.sp.toNat) (s.setSp (s.sp - 1))
      else .fatal (s.raise (.outOfBounds .stack s.sp.toNat)) := by
  simp only [pop, readChecked_eq h, checkBounds_stack, andThen_ite, andThen_ok, andThen_fatal]

/-- A fetch in a well-formed configuration: the next word with `IP` advanced, or the fatal error. -/
theorem fetch_eq {s : State} (h : s.cfg.WellFormed) :
    fetch s =
      if s.cfg.stackLimit ≤ s.ip.toNat + 1 ∧ s.ip.toNat + 1 < s.cfg.dataBase then
        .ok (s.mem.read (s.ip.toNat + 1)) (s.setIp (BitVec.ofNat 32 (s.ip.toNat + 1)))
      else .fatal (s.raise (.outOfBounds .instruction (s.ip.toNat + 1))) := by
  obtain ⟨_, h₂, h₃, _⟩ := h
  simp only [fetch, check_eq, andThen_ite, andThen_ok, andThen_fatal, checkBounds_instruction]
  split_ifs with hc
  · exact if_pos (show s.ip.toNat + 1 < s.cfg.memSize by omega)
  · rfl

/-- The value of `SP` after a pop of a stack that is not empty. -/
theorem toNat_sub_one {v : Word} (h : 0 < v.toNat) : (v - 1).toNat = v.toNat - 1 := by
  have h₁ : (1 : Word).toNat = 1 := rfl
  have h₂ := v.isLt
  rw [BitVec.toNat_sub, h₁]
  omega

/-- The value of an address register after it takes an address below `2^32`. -/
theorem toNat_ofNat_of_lt {n : Nat} (h : n < 2 ^ 32) : (BitVec.ofNat 32 n).toNat = n := by
  simp only [BitVec.toNat_ofNat]
  omega

/-- Every digit list the decimal loop makes ends in what was already there. -/
theorem digitsBefore_append (fuel n : Nat) (acc : List Digit) :
    ∃ ds, digitsBefore fuel n acc = ds ++ acc := by
  induction fuel generalizing n acc with
  | zero => exact ⟨[], rfl⟩
  | succ fuel ih =>
    unfold digitsBefore
    split_ifs
    · exact ⟨[_], rfl⟩
    · obtain ⟨ds, h⟩ := ih (n / 10) (Fin.ofNat 10 n :: acc)
      exact ⟨ds ++ [Fin.ofNat 10 n], by rw [h, List.append_assoc]; rfl⟩

end Sys2Proof.Machine
end

