-- ==== Sys2Proof/Laws/Exec.lean ====
section
/-!
SUPPORT. What the shared operations, an execute phase and a step can do, said once, over every state: one inversion
lemma each (20_memory.md R55 to R59, 30_encoding.md R98, R103, 47_unknown_and_reserved.md R161).
-/

namespace Sys2Proof.Machine

/-! ### The shared operations, with no hypothesis on the configuration -/

theorem check_cases (k : Region) (a : Nat) (s : State) :
    (∃ e, check k a s = .fatal (s.raise e)) ∨ (checkBounds s.cfg k a = true ∧ check k a s = .ok () s) := by
  simp only [check_eq]
  split_ifs with h
  · exact .inr ⟨h, rfl⟩
  · exact .inl ⟨_, rfl⟩

theorem memRead_cases (a : Nat) (s : State) : memRead a s = .absent a ∨ memRead a s = .ok (s.mem.read a) s := by
  simp only [memRead]
  split_ifs
  · exact .inr rfl
  · exact .inl rfl

theorem memWrite_cases (a : Nat) (v : Word) (s : State) :
    memWrite a v s = .absent a ∨ memWrite a v s = .ok () (s.setWord a v) := by
  simp only [memWrite]
  split_ifs
  · exact .inr rfl
  · exact .inl rfl

theorem readChecked_cases (k : Region) (a : Nat) (s : State) :
    (∃ b, readChecked k a s = .absent b) ∨ (∃ e, readChecked k a s = .fatal (s.raise e)) ∨
      (checkBounds s.cfg k a = true ∧ readChecked k a s = .ok (s.mem.read a) s) := by
  unfold readChecked
  rcases check_cases k a s with ⟨e, h⟩ | ⟨hc, h⟩ <;> rw [h]
  · exact .inr (.inl ⟨e, rfl⟩)
  · rw [andThen_ok]
    rcases memRead_cases a s with h | h <;> rw [h]
    · exact .inl ⟨_, rfl⟩
    · exact .inr (.inr ⟨hc, rfl⟩)

theorem writeChecked_cases (k : Region) (a : Nat) (v : Word) (s : State) :
    (∃ b, writeChecked k a v s = .absent b) ∨ (∃ e, writeChecked k a v s = .fatal (s.raise e)) ∨
      (checkBounds s.cfg k a = true ∧ writeChecked k a v s = .ok () (s.setWord a v)) := by
  unfold writeChecked
  rcases check_cases k a s with ⟨e, h⟩ | ⟨hc, h⟩ <;> rw [h]
  · exact .inr (.inl ⟨e, rfl⟩)
  · rw [andThen_ok]
    rcases memWrite_cases a v s with h | h <;> rw [h]
    · exact .inl ⟨_, rfl⟩
    · exact .inr (.inr ⟨hc, rfl⟩)

theorem push_cases (v : Word) (s : State) :
    (∃ b, push v s = .absent b) ∨ (∃ e, push v s = .fatal (s.raise e)) ∨
      (s.sp.toNat + 1 < s.cfg.stackLimit ∧
        push v s = .ok () ((s.setSp (BitVec.ofNat 32 (s.sp.toNat + 1))).setWord (s.sp.toNat + 1) v)) := by
  unfold push
  rcases check_cases .stack (s.sp.toNat + 1) s with ⟨e, h⟩ | ⟨hc, h⟩ <;> rw [h]
  · exact .inr (.inl ⟨e, rfl⟩)
  · rw [andThen_ok]
    rcases memWrite_cases (s.sp.toNat + 1) v (s.setSp (BitVec.ofNat 32 (s.sp.toNat + 1))) with h | h <;> rw [h]
    · exact .inl ⟨_, rfl⟩
    · exact .inr (.inr ⟨((checkBounds_stack _ _).mp hc).2, rfl⟩)

theorem peek_cases (s : State) :
    (∃ b, peek s = .absent b) ∨ (∃ e, peek s = .fatal (s.raise e)) ∨
      (0 < s.sp.toNat ∧ s.sp.toNat < s.cfg.stackLimit ∧ peek s = .ok (s.mem.read s.sp.toNat) s) := by
  unfold peek
  rcases readChecked_cases .stack s.sp.toNat s with h | h | ⟨hc, h⟩
  · exact .inl h
  · exact .inr (.inl h)
  · exact .inr (.inr ⟨((checkBounds_stack _ _).mp hc).1, ((checkBounds_stack _ _).mp hc).2, h⟩)

theorem pop_cases (s : State) :
    (∃ b, pop s = .absent b) ∨ (∃ e, pop s = .fatal (s.raise e)) ∨
      (0 < s.sp.toNat ∧ s.sp.toNat < s.cfg.stackLimit ∧
        pop s = .ok (s.mem.read s.sp.toNat) (s.setSp (s.sp - 1))) := by
  unfold pop
  rcases readChecked_cases .stack s.sp.toNat s with ⟨b, h⟩ | ⟨e, h⟩ | ⟨hc, h⟩ <;> rw [h]
  · exact .inl ⟨b, rfl⟩
  · exact .inr (.inl ⟨e, rfl⟩)
  · exact .inr (.inr ⟨((checkBounds_stack _ _).mp hc).1, ((checkBounds_stack _ _).mp hc).2, rfl⟩)

/-- Two pops, the operand pair of R130 and of STOR: one of them is refused, or both words are popped. -/
theorem popPair_cases (s : State) :
    (∃ b, popPair s = .absent b) ∨
      (∃ e n, n.toNat ≤ s.sp.toNat ∧ popPair s = .fatal ((s.setSp n).raise e)) ∨
      (2 ≤ s.sp.toNat ∧ s.sp.toNat < s.cfg.stackLimit ∧ popPair s =
        .ok (s.mem.read (s.sp.toNat - 1), s.mem.read s.sp.toNat) (s.setSp (BitVec.ofNat 32 (s.sp.toNat - 2)))) := by
  unfold popPair
  rcases pop_cases s with ⟨b, h⟩ | ⟨e, h⟩ | ⟨h₁, h₂, h⟩ <;> rw [h]
  · exact .inl ⟨b, rfl⟩
  · exact .inr (.inl ⟨e, s.sp, le_refl _, rfl⟩)
  · have e₁ := toNat_sub_one h₁
    rw [andThen_ok]
    rcases pop_cases (s.setSp (s.sp - 1)) with ⟨b, h⟩ | ⟨e, h⟩ | ⟨h₃, _, h⟩ <;> rw [h]
    · exact .inl ⟨b, rfl⟩
    · exact .inr (.inl ⟨e, s.sp - 1, by omega, rfl⟩)
    · have e₂ := toNat_sub_one h₃
      simp only [setSp_sp, setSp_mem] at h₃ e₂ ⊢
      have e₃ : s.sp - 1 - 1 = BitVec.ofNat 32 (s.sp.toNat - 2) := by
        apply BitVec.eq_of_toNat_eq
        rw [toNat_ofNat_of_lt (by have := s.sp.isLt; omega)]
        omega
      refine .inr (.inr ⟨by omega, h₂, ?_⟩)
      rw [andThen_ok, e₁, e₃]
      rfl

/-- A push into the slot that two pops just freed is a write one below the old top. -/
theorem push_after_two_pops {s : State} (v : Word) (h : 2 ≤ s.sp.toNat) :
    ((s.setSp (BitVec.ofNat 32 (s.sp.toNat - 2))).setSp
        (BitVec.ofNat 32 ((s.setSp (BitVec.ofNat 32 (s.sp.toNat - 2))).sp.toNat + 1))).setWord
        ((s.setSp (BitVec.ofNat 32 (s.sp.toNat - 2))).sp.toNat + 1) v =
      (s.setSp (s.sp - 1)).setWord (s.sp.toNat - 1) v := by
  have h₁ : (BitVec.ofNat 32 (s.sp.toNat - 2)).toNat + 1 = s.sp.toNat - 1 := by
    rw [toNat_ofNat_of_lt (by have := s.sp.isLt; omega)]
    omega
  have h₂ : BitVec.ofNat 32 (s.sp.toNat - 1) = s.sp - 1 := by
    apply BitVec.eq_of_toNat_eq
    rw [toNat_ofNat_of_lt (by have := s.sp.isLt; omega), toNat_sub_one (by omega)]
  simp only [setSp_sp, h₁, h₂]
  rfl

/-! ### An execute phase -/

/-- The shapes of what an execute phase of a literal or a primitive can leave. -/
inductive Effect (s : State) : Instr → State → Prop where
  /-- HALT. -/
  | halted : Effect s .halt s.stop
  /-- A fatal error, after at most two pops: nothing is written to memory. -/
  | raised (i : Instr) (e : FatalError) (n : Word) (below : n.toNat ≤ s.sp.toNat) : Effect s i ((s.setSp n).raise e)
  /-- LIT, NLIT, DUP: one word pushed. -/
  | pushed (i : Instr) (v : Word) (which : (∃ p, i = .lit p ∨ i = .nlit p) ∨ i = .dup)
      (room : s.sp.toNat + 1 < s.cfg.stackLimit) :
      Effect s i ((s.setSp (BitVec.ofNat 32 (s.sp.toNat + 1))).setWord (s.sp.toNat + 1) v)
  /-- ADD, SUB, MUL, DIV: two words replaced by one. -/
  | combined (i : Instr) (v : Word) (which : i = .add ∨ i = .sub ∨ i = .mul ∨ i = .div) (two : 2 ≤ s.sp.toNat)
      (range : s.sp.toNat < s.cfg.stackLimit) : Effect s i ((s.setSp (s.sp - 1)).setWord (s.sp.toNat - 1) v)
  /-- JMP, and JZ on a zero condition: `IP` in the Instructions window. -/
  | jumped (i : Instr) (n : Word) (a : Nat) (which : i = .jmp ∨ i = .jz) (below : n.toNat ≤ s.sp.toNat)
      (low : s.cfg.stackLimit ≤ a) (high : a < s.cfg.dataBase) :
      Effect s i ((s.setSp n).setIp (BitVec.ofNat 32 a))
  /-- JZ on a condition that is not zero. -/
  | fellThrough (n : Word) (below : n.toNat ≤ s.sp.toNat) : Effect s .jz (s.setSp n)
  /-- PRN and PRNCHAR: one word popped, one event emitted. -/
  | emitted (i : Instr) (e : OutEvent) (which : i = .prn ∨ i = .prnchar) (one : 0 < s.sp.toNat) :
      Effect s i ((s.setSp (s.sp - 1)).emit e)
  /-- LOAD: the top word replaced. -/
  | loaded (v : Word) (one : 0 < s.sp.toNat) (range : s.sp.toNat < s.cfg.stackLimit) :
      Effect s .load (s.setWord s.sp.toNat v)
  /-- STOR: two words popped, one stored at the biased address of the top word. -/
  | stored (n v : Word) (below : n.toNat ≤ s.sp.toNat)
      (inside : checkBounds s.cfg .programData (dataAddress s.cfg (s.mem.read s.sp.toNat)) = true) :
      Effect s .stor ((s.setSp n).setWord (dataAddress s.cfg (s.mem.read s.sp.toNat)) v)

theorem effect_of_push {s t : State} {i : Instr} {v : Word} (which : (∃ p, i = .lit p ∨ i = .nlit p) ∨ i = .dup)
    (h : (push v s).finish = .next t) : Effect s i t := by
  rcases push_cases v s with ⟨_, e⟩ | ⟨e', e⟩ | ⟨hr, e⟩ <;> rw [e] at h
  · cases h
  · cases h; exact .raised i e' s.sp (le_refl _)
  · cases h; exact .pushed i v which hr

theorem effect_of_binary {s t : State} {i : Instr} {f : Word → Word → Word}
    (which : i = .add ∨ i = .sub ∨ i = .mul ∨ i = .div) (h : (binary f s).finish = .next t) : Effect s i t := by
  unfold binary at h
  rcases popPair_cases s with ⟨_, e⟩ | ⟨e', n, hn, e⟩ | ⟨h₂, hs, e⟩ <;> rw [e] at h
  · cases h
  · cases h; exact .raised i e' n hn
  · rw [andThen_ok] at h
    have hn : (BitVec.ofNat 32 (s.sp.toNat - 2)).toNat ≤ s.sp.toNat := by
      rw [toNat_ofNat_of_lt (by have := s.sp.isLt; omega)]
      omega
    rcases push_cases (f (s.mem.read (s.sp.toNat - 1)) (s.mem.read s.sp.toNat))
        (s.setSp (BitVec.ofNat 32 (s.sp.toNat - 2))) with ⟨_, e⟩ | ⟨e', e⟩ | ⟨_, e⟩ <;> rw [e] at h
    · cases h
    · cases h; exact .raised i e' _ hn
    · rw [push_after_two_pops _ h₂] at h
      cases h
      exact .combined i _ which h₂ hs

/-- DIV is the other three with a zero test between the pops and the push. -/
theorem effect_of_div {s t : State} (h : exec .div s = .next t) : Effect s .div t := by
  by_cases hz : ∃ p u, popPair s = .ok p u ∧ isZero p.2 = true
  · obtain ⟨p, u, hp, hz⟩ := hz
    simp only [exec, execDiv, hp, andThen_ok, hz, if_true, finish_fatal] at h
    rcases popPair_cases s with ⟨_, e⟩ | ⟨e', n, hn, e⟩ | ⟨h₂, hs, e⟩ <;> rw [e] at hp
    · cases hp
    · cases hp
    · cases hp
      cases h
      refine .raised .div _ _ ?_
      rw [toNat_ofNat_of_lt (by have := s.sp.isLt; omega)]
      omega
  · refine effect_of_binary (f := aluDiv) (.inr (.inr (.inr rfl))) ?_
    rw [← h]
    simp only [exec, execDiv, binary]
    cases hp : popPair s with
    | ok p u =>
      have : isZero p.2 = false := by
        by_contra hz'
        exact hz ⟨p, u, hp, by simpa using hz'⟩
      simp only [andThen_ok, this]
      rfl
    | fatal u => rfl
    | absent a => rfl

theorem effect_of_jmp {s t : State} (h : exec .jmp s = .next t) : Effect s .jmp t := by
  simp only [exec, execJmp] at h
  rcases pop_cases s with ⟨_, e⟩ | ⟨e', e⟩ | ⟨h₁, _, e⟩ <;> rw [e] at h
  · cases h
  · cases h; exact .raised _ e' s.sp (le_refl _)
  · have hn : (s.sp - 1).toNat ≤ s.sp.toNat := by rw [toNat_sub_one h₁]; omega
    rw [andThen_ok] at h
    rcases check_cases .instruction (jumpTarget (s.setSp (s.sp - 1)).cfg (s.mem.read s.sp.toNat))
        (s.setSp (s.sp - 1)) with ⟨e', e⟩ | ⟨hc, e⟩ <;> rw [e] at h
    · cases h; exact .raised _ e' _ hn
    · have hb := (checkBounds_instruction _ _).mp hc
      cases h; exact .jumped _ _ _ (.inl rfl) hn hb.1 hb.2

theorem effect_of_jz {s t : State} (h : exec .jz s = .next t) : Effect s .jz t := by
  simp only [exec, execJz] at h
  rcases pop_cases s with ⟨_, e⟩ | ⟨e', e⟩ | ⟨h₁, _, e⟩ <;> rw [e] at h
  · cases h
  · cases h; exact .raised _ e' s.sp (le_refl _)
  · have e₁ := toNat_sub_one h₁
    rw [andThen_ok] at h
    rcases check_cases .instruction (jumpTarget (s.setSp (s.sp - 1)).cfg (s.mem.read s.sp.toNat))
        (s.setSp (s.sp - 1)) with ⟨e', e⟩ | ⟨hc, e⟩ <;> rw [e] at h
    · cases h; exact .raised _ e' _ (by omega)
    · have hb := (checkBounds_instruction _ _).mp hc
      rw [andThen_ok] at h
      rcases pop_cases (s.setSp (s.sp - 1)) with ⟨_, e⟩ | ⟨e', e⟩ | ⟨h₃, _, e⟩ <;> rw [e] at h
      · cases h
      · cases h; exact .raised _ e' _ (by omega)
      · have e₂ := toNat_sub_one h₃
        have hn : (s.sp - 1 - 1).toNat ≤ s.sp.toNat := by simp only [setSp_sp] at e₂; omega
        simp only [andThen_ok, finish_ok] at h
        split_ifs at h
        · cases h; exact .jumped _ (s.sp - 1 - 1) _ (.inr rfl) hn hb.1 hb.2
        · cases h; exact .fellThrough (s.sp - 1 - 1) hn

theorem effect_of_output {s t : State} {i : Instr} {f : Word → OutEvent} (which : i = .prn ∨ i = .prnchar)
    (h : ((pop s).andThen fun v s => .ok () (s.emit (f v))).finish = .next t) : Effect s i t := by
  rcases pop_cases s with ⟨_, e⟩ | ⟨e', e⟩ | ⟨h₁, _, e⟩ <;> rw [e] at h
  · cases h
  · cases h; exact .raised _ e' s.sp (le_refl _)
  · cases h; exact .emitted i _ which h₁

theorem effect_of_load {s t : State} (h : exec .load s = .next t) : Effect s .load t := by
  simp only [exec, execLoad] at h
  rcases pop_cases s with ⟨_, e⟩ | ⟨e', e⟩ | ⟨h₁, h₂, e⟩ <;> rw [e] at h
  · cases h
  · cases h; exact .raised _ e' s.sp (le_refl _)
  · have e₁ := toNat_sub_one h₁
    rw [andThen_ok] at h
    rcases readChecked_cases .programData (dataAddress (s.setSp (s.sp - 1)).cfg (s.mem.read s.sp.toNat))
        (s.setSp (s.sp - 1)) with ⟨_, e⟩ | ⟨e', e⟩ | ⟨_, e⟩ <;> rw [e] at h
    · cases h
    · cases h; exact .raised _ e' _ (by omega)
    · rw [andThen_ok] at h
      rcases push_cases ((s.setSp (s.sp - 1)).mem.read
          (dataAddress (s.setSp (s.sp - 1)).cfg (s.mem.read s.sp.toNat))) (s.setSp (s.sp - 1))
        with ⟨_, e⟩ | ⟨e', e⟩ | ⟨_, e⟩ <;> rw [e] at h
      · cases h
      · cases h; exact .raised _ e' _ (by omega)
      · have e₂ : s.sp.toNat - 1 + 1 = s.sp.toNat := by omega
        simp only [setSp_sp, e₁, e₂, BitVec.ofNat_toNat, BitVec.setWidth_eq, finish_ok] at h
        cases h
        exact .loaded _ h₁ h₂

/-- STOR's two pops are the operand pair. -/
theorem exec_stor_eq (s : State) :
    exec .stor s =
      ((popPair s).andThen fun ab s => writeChecked .programData (dataAddress s.cfg ab.2) ab.1 s).finish := by
  simp only [exec, execStor, popPair]
  cases pop s with
  | ok a t =>
    simp only [andThen_ok]
    cases pop t <;> rfl
  | fatal t => rfl
  | absent a => rfl

theorem effect_of_stor {s t : State} (h : exec .stor s = .next t) : Effect s .stor t := by
  rw [exec_stor_eq] at h
  rcases popPair_cases s with ⟨_, e⟩ | ⟨e', n, hn, e⟩ | ⟨h₂, hs, e⟩ <;> rw [e] at h
  · cases h
  · cases h; exact .raised _ e' n hn
  · have hn : (BitVec.ofNat 32 (s.sp.toNat - 2)).toNat ≤ s.sp.toNat := by
      rw [toNat_ofNat_of_lt (by have := s.sp.isLt; omega)]
      omega
    rw [andThen_ok] at h
    rcases writeChecked_cases .programData
        (dataAddress (s.setSp (BitVec.ofNat 32 (s.sp.toNat - 2))).cfg (s.mem.read s.sp.toNat))
        (s.mem.read (s.sp.toNat - 1)) (s.setSp (BitVec.ofNat 32 (s.sp.toNat - 2)))
      with ⟨_, e⟩ | ⟨e', e⟩ | ⟨hc, e⟩ <;> rw [e] at h
    · cases h
    · cases h; exact .raised _ e' _ hn
    · cases h; exact .stored _ _ hn hc

/-- Whatever state it starts in, an execute phase that answers a next state, of any instruction but a reserved word,
leaves one of the shapes of `Effect`. -/
theorem exec_effect {i : Instr} (hi : ∀ id, i ≠ .rsvd3 id) {s t : State} (h : exec i s = .next t) : Effect s i t := by
  cases i with
  | rsvd3 id => exact absurd rfl (hi id)
  | halt => cases h; exact .halted
  | lit imm => exact effect_of_push (.inl ⟨imm, .inl rfl⟩) h
  | nlit imm => exact effect_of_push (.inl ⟨imm, .inr rfl⟩) h
  | add => exact effect_of_binary (.inl rfl) h
  | sub => exact effect_of_binary (.inr (.inl rfl)) h
  | mul => exact effect_of_binary (.inr (.inr (.inl rfl))) h
  | div => exact effect_of_div h
  | dup =>
    simp only [exec, execDup] at h
    rcases peek_cases s with ⟨_, e⟩ | ⟨e', e⟩ | ⟨_, _, e⟩ <;> rw [e] at h
    · cases h
    · cases h; exact .raised _ e' s.sp (le_refl _)
    · exact effect_of_push (.inr rfl) h
  | jmp => exact effect_of_jmp h
  | jz => exact effect_of_jz h
  | prn => exact effect_of_output (f := fun v => .text (decimal v)) (.inl rfl) h
  | prnchar => exact effect_of_output (f := .char) (.inr rfl) h
  | load => exact effect_of_load h
  | stor => exact effect_of_stor h

/-- The execute rule of a primitive is its instruction's. -/
theorem execOp_eq (m : Op) (s : State) : execOp m s = exec m.instr s := by
  cases m <;> rfl

theorem instr_ne_rsvd3 (m : Op) (id : Payload) : m.instr ≠ .rsvd3 id := by
  cases m <;> simp [Op.instr]

/-- A reserved word is the primitive its payload names, or raises `UnknownOpcode` (R161). -/
theorem exec_rsvd3_cases (id : Payload) (s : State) :
    (∃ m, lookupOp s.cfg.opid id = some m ∧ exec (.rsvd3 id) s = exec m.instr s) ∨
      (lookupOp s.cfg.opid id = none ∧ exec (.rsvd3 id) s = .next (s.raise (.unknownOpcode id))) := by
  cases h : lookupOp s.cfg.opid id with
  | none => exact .inr ⟨rfl, by simp only [exec, execRsvd3, h, execUnknown]⟩
  | some m =>
    refine .inl ⟨m, rfl, ?_⟩
    rw [← execOp_eq]
    simp only [exec, execRsvd3, h]

/-- The execute phase on a word: an instruction's, or `UnknownOpcode` (R98, R160). -/
theorem execWord_cases {w : Word} {s t : State} (h : execWord w s = .next t) :
    (∃ i, decode s.cfg.opid w = .instr i ∧ exec i s = .next t) ∨
      (∃ id, decode s.cfg.opid w = .unknownOpcode id ∧ t = s.raise (.unknownOpcode id)) := by
  unfold execWord at h
  cases hd : decode s.cfg.opid w with
  | instr i => rw [hd] at h; exact .inl ⟨i, rfl, h⟩
  | unknownOpcode id => rw [hd] at h; cases h; exact .inr ⟨id, rfl, rfl⟩

/-! ### A step -/

theorem isRunning_iff (s : State) : s.isRunning = true ↔ s.run = true ∧ s.fault = none := by
  simp [State.isRunning]

/-- A step in a configuration the spec allows: nothing, in a terminal state; a failed fetch; or the execute phase on
the word at `IP + 1`, with `IP` there and `TR`, `DR` latched (R103, R104). -/
theorem step_cases {s : State} (hw : s.cfg.WellFormed) :
    (s.isRunning = false ∧ step s = .next s) ∨
      (s.isRunning = true ∧ ¬(s.cfg.stackLimit ≤ s.ip.toNat + 1 ∧ s.ip.toNat + 1 < s.cfg.dataBase) ∧
        step s = .next (s.raise (.outOfBounds .instruction (s.ip.toNat + 1)))) ∨
      (s.isRunning = true ∧ s.cfg.stackLimit ≤ s.ip.toNat + 1 ∧ s.ip.toNat + 1 < s.cfg.dataBase ∧
        step s = execWord (s.mem.read (s.ip.toNat + 1))
          ((s.setIp (BitVec.ofNat 32 (s.ip.toNat + 1))).latch (s.mem.read (s.ip.toNat + 1)))) := by
  unfold step cycleIfRunning
  cases hr : s.isRunning with
  | false => exact .inl ⟨rfl, rfl⟩
  | true =>
    rw [if_pos rfl, cycle, fetch_eq hw]
    split_ifs with h
    · exact .inr (.inr ⟨rfl, h.1, h.2, rfl⟩)
    · exact .inr (.inl ⟨rfl, h, rfl⟩)

end Sys2Proof.Machine
end

