-- ==== Sys2Proof/Laws/PerInstr.lean ====
section
/-!
SUPPORT. Per-instruction laws, about the instruction as syntax. The family `Codec` says what the two fields of an
instruction's word are (30_encoding.md R91, R96, R99): its tag, and its immediate or opcode id.
-/

namespace Sys2Proof

/-- The tag of an instruction's word: 0 and 2 for the literals, 1 for a primitive, 3 for the reserved words (R91). -/
def tagOf : Instr → Tag
  | .lit _ => 0
  | .nlit _ => 2
  | .rsvd3 _ => 3
  | _ => 1

/-- The payload of an instruction's word: the immediate, the opcode id, or the reserved word's payload (R96). -/
def payloadOf (ids : OpIds) : Instr → Payload
  | .lit imm => imm
  | .nlit imm => imm
  | .rsvd3 id => id
  | .halt => ids.halt
  | .add => ids.add
  | .sub => ids.sub
  | .mul => ids.mul
  | .div => ids.div
  | .dup => ids.dup
  | .jmp => ids.jmp
  | .jz => ids.jz
  | .prn => ids.prn
  | .prnchar => ids.prnchar
  | .load => ids.load
  | .stor => ids.stor

namespace Laws.Codec

/-- The word of an instruction classifies as its tag and carries its payload, under every numbering. -/
def Statement (i : Instr) : Prop :=
  ∀ ids, classify (encode ids i) = tagOf i ∧ payload (encode ids i) = payloadOf ids i

theorem of_packWord {i : Instr} (h : ∀ ids, encode ids i = packWord (tagOf i) (payloadOf ids i)) : Statement i :=
  fun ids => by rw [h ids]; exact ⟨classify_packWord _ _, payload_packWord _ _⟩

theorem lit (imm : Payload) : Statement (.lit imm) := of_packWord fun _ => rfl
theorem nlit (imm : Payload) : Statement (.nlit imm) := of_packWord fun _ => rfl
theorem halt : Statement .halt := of_packWord fun _ => rfl
theorem add : Statement .add := of_packWord fun _ => rfl
theorem sub : Statement .sub := of_packWord fun _ => rfl
theorem mul : Statement .mul := of_packWord fun _ => rfl
theorem div : Statement .div := of_packWord fun _ => rfl
theorem dup : Statement .dup := of_packWord fun _ => rfl
theorem jmp : Statement .jmp := of_packWord fun _ => rfl
theorem jz : Statement .jz := of_packWord fun _ => rfl
theorem prn : Statement .prn := of_packWord fun _ => rfl
theorem prnchar : Statement .prnchar := of_packWord fun _ => rfl
theorem load : Statement .load := of_packWord fun _ => rfl
theorem stor : Statement .stor := of_packWord fun _ => rfl
theorem rsvd3 (id : Payload) : Statement (.rsvd3 id) := of_packWord fun _ => rfl

end Laws.Codec

end Sys2Proof
end

