-- ==== Sys2Proof/Laws/Session.lean ====
section
/-!
SUPPORT. What the host's transactions on a session can do, one inversion lemma each (70_reset_and_hazards.md R201 to
R203, R219), and the laws of the session they rest on.
-/

namespace Sys2Proof.Machine

@[simp] theorem fresh_machine (c : Config) : (Session.fresh c).machine = State.fresh c := rfl
@[simp] theorem fresh_runBegun (c : Config) : (Session.fresh c).runBegun = false := rfl

theorem withOutcome_next_iff {h u : Session} {o : Host.Outcome State Fault Refusal} :
    h.withOutcome o = .next u ↔ ∃ t, o = .next t ∧ u = { h with machine := t } := by
  cases o <;> simp [Session.withOutcome, eq_comm]

/-- When a load has a meaning (R204, R219). -/
theorem loadable_iff {h : Session} :
    h.loadable = true ↔ h.runBegun = false ∧ h.machine.ip.toNat + 1 = h.machine.cfg.stackLimit := by
  simp [Session.loadable]

/-- A load that answers was made before the first run, and is the copy of R201. -/
theorem load_next_iff {ws : List Word} {h u : Session} :
    load ws h = .next u ↔
      h.loadable = true ∧ ∃ t, (loadFrom 0 ws h.machine).finish = .next t ∧ u = { h with machine := t } := by
  rw [load]
  split_ifs with hl <;> simp [hl, withOutcome_next_iff]

/-- A run that answers is the run loop, and the run has begun (R203, R219). -/
theorem run_next_iff {k : Nat} {h u : Session} :
    run k h = .next u ↔ ∃ t, runFor k h.machine = .next t ∧ u = { machine := t, runBegun := true } :=
  withOutcome_next_iff

end Sys2Proof.Machine
end

