-- ==== Sys2Proof/Tests/Slice0.lean ====
section
/-!
SUPPORT. Tests on fixed values, their expected results taken from spec/95_test_vectors.md and the rules' own examples
and corner cases, and the witnesses that the hypotheses of the statements can be met.
-/

namespace Sys2Proof.Tests

open Sys2Proof.Machine

/-! ### Small states -/

/-- Words at consecutive addresses from `a`. -/
def cellsFrom : Nat → List Word → Memory
  | _, [] => []
  | a, v :: vs => (a, v) :: cellsFrom (a + 1) vs

/-- A Running state with these live words, bottom first, `IP` at 300 (95_test_vectors.md, conventions of Part 2). -/
def withStack (c : Config) (vs : List Word) : State :=
  { State.fresh c with mem := cellsFrom 1 vs, sp := BitVec.ofNat 32 vs.length, ip := 300 }

/-- In `CFG_REF`. -/
def ref (vs : List Word) : State := withStack Config.ref vs

/-- In `CFG_TINY`: the stack holds three words, `IP` at 6. -/
def tiny (vs : List Word) : State := { withStack Config.tiny vs with ip := 6 }

/-- A state about to fetch: the word at the entry point of a fresh instance in `CFG_TINY`. -/
def freshWith (w : Word) : State := (State.fresh Config.tiny).setWord 4 w

/-- The next state of an outcome. -/
def nextOf : Host.Outcome State Fault Refusal → Option State
  | .next s => some s
  | _ => none

/-- The next session of a transaction. -/
def sessionOf : Host.Outcome Session Fault Refusal → Option Session
  | .next h => some h
  | _ => none

/-- The refusal of a transaction. -/
def refusalOf : Host.Outcome Session Fault Refusal → Option Refusal
  | .refused r => some r
  | _ => none

/-- What most vectors list: `SP`, the live stack bottom first, `IP`, `RUN`, `FAULT`. -/
def view (o : Host.Outcome State Fault Refusal) : Option (Nat × List Word × Nat × Bool × Option FatalError) :=
  (nextOf o).map fun t =>
    (t.sp.toNat, (List.range t.sp.toNat).map fun i => t.mem.read (i + 1), t.ip.toNat, t.run, t.fault)

/-! ### Well-formedness: each check refuses a term that breaks it -/

theorem test_wf_stackLimit_zero : ¬(Config.mk 0 8 12 OpIds.tableOrder).WellFormed := by decide
theorem test_wf_stackLimit_above_dataBase : ¬(Config.mk 9 8 12 OpIds.tableOrder).WellFormed := by decide
theorem test_wf_dataBase_above_memSize : ¬(Config.mk 4 13 12 OpIds.tableOrder).WellFormed := by decide
theorem test_wf_memSize_above_word : ¬(Config.mk 4 8 4294967297 OpIds.tableOrder).WellFormed := by decide
theorem test_wf_two_ids_equal : ¬(Config.mk 4 8 12 { OpIds.tableOrder with add := 0 }).WellFormed := by decide
theorem test_wf_empty_windows_allowed : (Config.mk 1 1 1 OpIds.tableOrder).WellFormed := by decide
theorem test_wf_reserved_word_refused : programWellFormed Config.tiny [.lit 1, .rsvd3 0] = false := by decide
theorem test_wf_program_too_long :
    programWellFormed Config.tiny [.lit 1, .lit 1, .lit 1, .lit 1, .halt] = false := by decide
theorem test_wf_program_accepted : programWellFormed Config.tiny [.lit 5, .lit 0, .div, .halt] = true := by decide

/-! ### Decoding: words written out bit by bit from the encodings (R91, R99, R120, R121, R161), V-CODEC -/

theorem test_decode_lit : decodeTableWord 32 0b00000000000000000000000001001000 = some (.lit 72) := by decide
theorem test_decode_nlit : decodeTableWord 32 0b10111111111111111111111111111111 = some (.nlit 0x3FFFFFFF) := by decide
theorem test_decode_halt : decodeTableWord 32 0b01000000000000000000000000000000 = some .halt := by decide
theorem test_decode_add : decodeTableWord 32 0b01000000000000000000000000000001 = some .add := by decide
theorem test_decode_sub : decodeTableWord 32 0b01000000000000000000000000000010 = some .sub := by decide
theorem test_decode_mul : decodeTableWord 32 0b01000000000000000000000000000011 = some .mul := by decide
theorem test_decode_div : decodeTableWord 32 0b01000000000000000000000000000100 = some .div := by decide
theorem test_decode_dup : decodeTableWord 32 0b01000000000000000000000000000101 = some .dup := by decide
theorem test_decode_jmp : decodeTableWord 32 0b01000000000000000000000000000110 = some .jmp := by decide
theorem test_decode_jz : decodeTableWord 32 0b01000000000000000000000000000111 = some .jz := by decide
theorem test_decode_prn : decodeTableWord 32 0b01000000000000000000000000001000 = some .prn := by decide
theorem test_decode_prnchar : decodeTableWord 32 0b01000000000000000000000000001001 = some .prnchar := by decide
theorem test_decode_load : decodeTableWord 32 0b01000000000000000000000000001010 = some .load := by decide
theorem test_decode_stor : decodeTableWord 32 0b01000000000000000000000000001011 = some .stor := by decide
theorem test_decode_rsvd3 : decodeTableWord 32 0b11000000000000000000000000000001 = some (.rsvd3 1) := by decide
theorem test_decode_unknown_id : decodeTableWord 32 0b01000000000000000000000000001100 = none := by decide
theorem test_decode_unknown_named :
    decode OpIds.tableOrder 0x7FFFFFFF = .unknownOpcode 1073741823 := by decide
theorem test_encode_prnchar : encode OpIds.tableOrder .prnchar = 0x40000009 := by decide

/-! ### Bounds checker, V-BOUNDS -/

theorem test_bounds_stack :
    [0, 1, 255, 256, 300].map (checkBounds Config.ref .stack) = [false, true, true, false, false] := by decide
theorem test_bounds_instruction :
    [255, 256, 767, 768].map (checkBounds Config.ref .instruction) = [false, true, true, false] := by decide
theorem test_bounds_programData :
    [767, 768, 1023, 1024, 4294968063].map (checkBounds Config.ref .programData)
      = [false, true, true, false, false] := by decide

/-! ### One instruction each, V-LIT to V-LDST -/

theorem test_lit : view (exec (.lit 42) (ref [7])) = some (2, [7, 42], 300, true, none) := by decide
theorem test_lit_full : view (exec (.lit 1) (tiny [1, 2, 3]))
    = some (3, [1, 2, 3], 6, false, some (.outOfBounds .stack 4)) := by decide
theorem test_nlit_no_sign : view (exec (.nlit 5) (ref [])) = some (1, [5], 300, true, none) := by decide
theorem test_halt : view (exec .halt (ref [6, 9])) = some (2, [6, 9], 300, false, none) := by decide
theorem test_add_wraps : view (exec .add (ref [9, 0xFFFFFFFF, 1])) = some (2, [9, 0], 300, true, none) := by decide
theorem test_add_one_word : view (exec .add (ref [5]))
    = some (0, [], 300, false, some (.outOfBounds .stack 0)) := by decide
theorem test_sub_borrows : view (exec .sub (ref [2, 7])) = some (1, [0xFFFFFFFB], 300, true, none) := by decide
theorem test_mul_low_half : view (exec .mul (ref [0x3FFFFFFF, 0x3FFFFFFF]))
    = some (1, [0x80000001], 300, true, none) := by decide
theorem test_div_unsigned : view (exec .div (ref [0xFFFFFFFF, 2])) = some (1, [0x7FFFFFFF], 300, true, none) := by
  decide
theorem test_div_by_zero : view (exec .div (ref [8, 5, 0]))
    = some (1, [8], 300, false, some .divisionByZero) := by decide
theorem test_div_one_zero_word : view (exec .div (ref [0]))
    = some (0, [], 300, false, some (.outOfBounds .stack 0)) := by decide
theorem test_dup : view (exec .dup (ref [1, 0xFFFFFFFF]))
    = some (3, [1, 0xFFFFFFFF, 0xFFFFFFFF], 300, true, none) := by decide
theorem test_jmp : view (exec .jmp (ref [9, 2])) = some (1, [9], 258, true, none) := by decide
theorem test_jmp_no_wrap : view (exec .jmp (ref [0xFFFFFFFF]))
    = some (0, [], 300, false, some (.outOfBounds .instruction 4294967551)) := by decide
theorem test_jz_jumps : view (exec .jz (ref [0, 16])) = some (0, [], 272, true, none) := by decide
theorem test_jz_bad_target : view (exec .jz (ref [1, 512]))
    = some (1, [1], 300, false, some (.outOfBounds .instruction 768)) := by decide
theorem test_prn : (nextOf (exec .prn (ref [0xFFFFFFFF]))).map State.out
    = some [.text [4, 2, 9, 4, 9, 6, 7, 2, 9, 5]] := by decide
theorem test_prn_zero : (nextOf (exec .prn (ref [0]))).map State.out = some [.text [0]] := by decide
theorem test_prnchar : (nextOf (exec .prnchar (ref [72]))).map State.out = some [.char 72] := by decide
theorem test_prnchar_empty : (nextOf (exec .prnchar (ref []))).map (fun t => (t.out, t.fault))
    = some ([], some (.outOfBounds .stack 0)) := by decide
theorem test_load : view (exec .load ((ref [255]).setWord 1023 9)) = some (1, [9], 300, true, none) := by decide
theorem test_load_past_end : view (exec .load (ref [256]))
    = some (0, [], 300, false, some (.outOfBounds .programData 1024)) := by decide
theorem test_stor : (nextOf (exec .stor (ref [7, 0xDEADBEEF, 255]))).map (fun t => (t.sp, t.mem.read 1023))
    = some (1, 0xDEADBEEF) := by decide
theorem test_stor_one_word : view (exec .stor (ref [256]))
    = some (0, [], 300, false, some (.outOfBounds .stack 0)) := by decide
theorem test_rsvd3_acts_as_add : view (exec (.rsvd3 1) (ref [1, 2])) = some (1, [3], 300, true, none) := by decide
theorem test_rsvd3_unknown : view (exec (.rsvd3 0x3FFFFFFF) (ref []))
    = some (0, [], 300, false, some (.unknownOpcode 1073741823)) := by decide

/-- A word of memory that no write has reached reads as `MEM_INIT` of its address, whatever that is (V-LDST). -/
theorem test_load_unwritten : (nextOf (exec .load (ref [5]))).map (fun t => t.mem.read 1)
    = some (Config.memInit 773) := rfl

/-- The model's own stop: in a configuration R5 forbids, an access past the end of memory. -/
theorem test_absent_address :
    exec .halt (ref []) = .next (ref []).stop ∧
    push 1 { ref [] with cfg := { Config.ref with memSize := 1 } } = .absent 1 := ⟨rfl, rfl⟩

/-! ### The step, V-UNK, V-FETCH -/

theorem test_step_tag_registers : (nextOf (step (freshWith 0x80000005))).map (fun t => (t.ip, t.tr, t.dr, t.sp))
    = some (4, 2, 5, 1) := by decide
theorem test_step_unknown : (nextOf (step (freshWith 0x4000000C))).map (fun t => (t.ip, t.tr, t.dr, t.fault, t.run))
    = some (4, 1, 12, some (.unknownOpcode 12), false) := by decide
theorem test_step_reserved_halts : (nextOf (step (freshWith 0xC0000000))).map (fun t => (t.tr, t.run, t.fault))
    = some (3, false, none) := by decide
theorem test_step_fetch_fault : (nextOf (step { ref [4] with ip := 767, tr := 1, dr := 8 })).map
    (fun t => (t.ip, t.tr, t.dr, t.sp, t.fault)) = some (767, 1, 8, 1, some (.outOfBounds .instruction 768)) := by
  decide
theorem test_step_from_reset : (nextOf (step (State.reset.withFetchWord 32 0x2A))).map
    (fun t => (t.ip, t.tr, t.dr, t.sp, t.mem.read 1)) = some (256, 0, 42, 1, 42) := by decide

/-! ### Transactions, P9 -/

theorem test_load_too_long : (sessionOf (load [1, 2, 3, 4, 0x40000000] (Session.fresh Config.tiny))).map
    (fun u => ([4, 5, 6, 7].map u.machine.mem.read, u.machine.mem.lookup 8, u.machine.ip, u.machine.run, u.machine.fault))
      = some ([1, 2, 3, 4], none, 3, false, some (.outOfBounds .instruction 8)) := by decide
/-- R219: a run has begun also where its first fetch fails (here the Instructions window is empty), and where it performs
no cycle because the load before it failed; a load after it has no meaning. -/
theorem test_load_after_failed_fetch :
    (sessionOf (run 1 (Session.fresh (Config.mk 1 1 1 OpIds.tableOrder)))).map (fun u => (u.machine.ip, u.machine.fault, refusalOf (load [] u)))
      = some (0, some (.outOfBounds .instruction 1), some .loadAfterRun) := by decide
theorem test_load_after_run_of_no_cycle :
    ((sessionOf (load [1, 2, 3, 4, 5] (Session.fresh Config.tiny))).bind fun u => sessionOf (run 9 u)).map
      (fun u => (u.machine.ip, refusalOf (load [] u))) = some (3, some .loadAfterRun) := by decide
/-- R219: two loads before the first run; the second leaves the first's longer tail. -/
theorem test_load_twice :
    ((sessionOf (load [1, 2, 3] (Session.fresh Config.tiny))).bind fun u => sessionOf (load [9] u)).map
      (fun u => [4, 5, 6].map u.machine.mem.read) = some [9, 2, 3] := by decide
theorem test_fault_register : faultRegister (some (.outOfBounds .programData 0x1000000FE))
    = { valid := 1, kind := 1, region := some 2, info := some 0x1000000FE } := by decide
theorem test_fault_register_reset : (faultRegister none).valid = 0 ∧ (faultRegister none).kind = 0 := by decide

/-! ### Witnesses: the hypotheses of the statements can be met -/

theorem witness_injective : OpIds.tableOrder.Injective := by decide
theorem witness_decodes : decode OpIds.tableOrder 0x40000004 = .instr .div := by decide

/-- StepRunsDecodedInstruction, DecodeRegistersAreScratch: at the first and the last word of the window. -/
theorem witness_step_runs :
    let s := freshWith 0x00000007
    s.cfg.WellFormed ∧ s.Running ∧ s.cfg.stackLimit ≤ s.ip.toNat + 1 ∧ s.ip.toNat + 1 < s.cfg.dataBase ∧
      decode s.cfg.opid (s.mem.read (s.ip.toNat + 1)) = .instr (.lit 7) := by decide
theorem witness_step_runs_last_word :
    let s := (tiny []).setWord 7 0x40000000
    s.cfg.WellFormed ∧ s.Running ∧ s.cfg.stackLimit ≤ s.ip.toNat + 1 ∧ s.ip.toNat + 1 < s.cfg.dataBase ∧
      decode s.cfg.opid (s.mem.read (s.ip.toNat + 1)) = .instr .halt := by decide
/-- StepOnUnknownIdFaults: id 12, the first that the default numbering does not use. -/
theorem witness_unknown_id :
    let s := freshWith 0x4000000C
    s.cfg.WellFormed ∧ s.Running ∧ s.cfg.stackLimit ≤ s.ip.toNat + 1 ∧ s.ip.toNat + 1 < s.cfg.dataBase ∧
      s.mem.read (s.ip.toNat + 1) = packWord 1 12 ∧ lookupOp s.cfg.opid 12 = none := by decide
theorem witness_unknown_id_no_mnemonic (m : Op) : OpIds.tableOrder.id m ≠ 12 := by cases m <;> decide
/-- FetchFaultChangesNothingElse: just past the last word. -/
theorem witness_fetch_fault :
    let s : State := { tiny [] with ip := 7 }
    s.Running ∧ ¬(s.cfg.stackLimit ≤ s.ip.toNat + 1 ∧ s.ip.toNat + 1 < s.cfg.dataBase) := by decide
theorem witness_halted : (tiny []).stop.Halted := by decide
theorem witness_faulted : ((tiny []).raise .divisionByZero).Faulted := by decide
/-- JumpResumesOnePastTarget: the largest target that leaves a word after it. -/
theorem witness_jump_resumes :
    let s := (tiny [2]).setWord 7 0x40000000
    s.InCycle ∧ 1 ≤ s.sp.toNat ∧ s.top.toNat + s.cfg.stackLimit + 1 < s.cfg.dataBase ∧
      decode s.cfg.opid (s.mem.read (s.top.toNat + s.cfg.stackLimit + 1)) = .instr .halt := by decide
/-- LitPushesPayload, NlitPushesUnsignedPayload, DupPushesTopAgain: one slot free, and none. -/
theorem witness_push_room : (tiny [1, 2]).InCycle ∧ (tiny [1, 2]).sp.toNat + 1 < (tiny [1, 2]).cfg.stackLimit := by decide
theorem witness_push_full :
    (tiny [1, 2, 3]).InCycle ∧ 1 ≤ (tiny [1, 2, 3]).sp.toNat ∧
      (tiny [1, 2, 3]).sp.toNat + 1 = (tiny [1, 2, 3]).cfg.stackLimit := by decide
/-- The stack depths 0, 1 and 2 of the popping instructions, in a cycle. -/
theorem witness_depth_zero : (tiny []).InCycle ∧ (tiny []).sp.toNat = 0 := by decide
theorem witness_depth_one : (tiny [0]).InCycle ∧ (tiny [0]).sp.toNat = 1 ∧ (tiny [0]).Running := by decide
theorem witness_depth_two : (tiny [8, 1]).InCycle ∧ 2 ≤ (tiny [8, 1]).sp.toNat ∧ (tiny [8, 1]).top ≠ 0 := by decide
theorem witness_div_zero : (tiny [8, 0]).InCycle ∧ 2 ≤ (tiny [8, 0]).sp.toNat ∧ (tiny [8, 0]).top = 0 := by decide
/-- JmpSetsBiasedTarget: the largest target accepted, and the smallest refused. -/
theorem witness_jmp_accepted :
    let s := tiny [3]
    s.InCycle ∧ 1 ≤ s.sp.toNat ∧ s.top.toNat + s.cfg.stackLimit < s.cfg.dataBase := by decide
theorem witness_jmp_refused :
    let s := tiny [4]
    s.InCycle ∧ 1 ≤ s.sp.toNat ∧ s.cfg.dataBase ≤ s.top.toNat + s.cfg.stackLimit := by decide
/-- JzJumpsOnZero: its clauses (the refused target is `witness_jmp_refused`, the empty stack `witness_depth_zero`). -/
theorem witness_jz_zero :
    let s := tiny [0, 3]
    s.InCycle ∧ 2 ≤ s.sp.toNat ∧ s.top.toNat + s.cfg.stackLimit < s.cfg.dataBase ∧ s.second = 0 := by decide
theorem witness_jz_not_zero :
    let s := tiny [0x80000000, 3]
    s.InCycle ∧ 2 ≤ s.sp.toNat ∧ s.top.toNat + s.cfg.stackLimit < s.cfg.dataBase ∧ s.second ≠ 0 := by decide
theorem witness_jz_target_alone :
    let s := tiny [3]
    s.InCycle ∧ s.sp.toNat = 1 ∧ s.top.toNat + s.cfg.stackLimit < s.cfg.dataBase := by decide
/-- LoadReplacesAddressByWord, StorWritesDataWord: the largest offset accepted, and the smallest refused. -/
theorem witness_data_accepted :
    let s := tiny [7, 3]
    s.InCycle ∧ 2 ≤ s.sp.toNat ∧ s.top.toNat + s.cfg.dataBase < s.cfg.memSize ∧
      s.mem.lookup (s.top.toNat + s.cfg.dataBase) = none := by decide
theorem witness_data_refused :
    let s := tiny [7, 4]
    s.InCycle ∧ 2 ≤ s.sp.toNat ∧ s.cfg.memSize ≤ s.top.toNat + s.cfg.dataBase := by decide
/-- ReservedTagCompletes: a primitive that is ready. -/
theorem witness_ready : (tiny [8, 1]).InCycle ∧ (tiny [8, 1]).Ready .div := by decide
/-- ReservedTagDispatchesPayload: an id of the numbering, and one of none. -/
theorem witness_reserved : (tiny []).cfg.WellFormed ∧ (tiny []).cfg.opid.id .add = 1 ∧ (tiny []).Running := by decide

/-- The frames: each instruction named has a next state to speak of. -/
theorem witness_frames :
    [Instr.halt, .jmp, .jz, .prn, .prnchar, .lit 1, .nlit 1, .dup, .add, .sub, .mul, .div, .load, .stor, .rsvd3 1].all
      (fun i => (nextOf (exec i (tiny [1, 1]))).isSome) = true := by decide

/-- ResetValues: a configuration the spec allows, with the smallest sizes R5 allows and with the largest. -/
theorem witness_configurations :
    (Config.mk 1 1 1 OpIds.tableOrder).WellFormed ∧
      (Config.mk 4294967296 4294967296 4294967296 OpIds.tableOrder).WellFormed := by decide

/-- The invariants hold in a state that is not the reset state: the statements about `step` from them, `load` and runs
say something of it. -/
theorem witness_invariant : (freshWith 0x00000007).Inv where
  config := by decide
  memory := by decide
  exists_ := by decide
  sp_range := by decide
  ip_low := by decide
  ip_high := by decide
  live := fun a h₁ h₂ => by
    have : a ≤ 0 := h₂
    omega
  zero := by decide
  stopped := by decide
  report := trivial
theorem witness_invariant_step : (freshWith 0x00000007).Running ∧ (nextOf (step (freshWith 0x00000007))).isSome = true := by
  decide
/-- The same of a session before the first run, and of one in which a run has begun. -/
theorem witness_session_invariant (b : Bool) : ({ machine := freshWith 0x00000007, runBegun := b } : Session).Inv where
  machine := witness_invariant
  fresh := fun _ => { ip := rfl, sp := rfl, tr := rfl, dr := rfl, out := rfl }
theorem witness_invariant_load :
    (sessionOf (load [0x00000007] { machine := freshWith 0x00000007, runBegun := false })).isSome = true := by decide
/-- ReportedAddresses: a step whose report names each region. -/
theorem witness_reports :
    (nextOf (step (freshWith 0x40000001))).map State.fault = some (some (.outOfBounds .stack 0)) ∧
      (nextOf (step { tiny [] with ip := 7 })).map State.fault = some (some (.outOfBounds .instruction 8)) ∧
      (nextOf (exec .load (tiny [4]))).map State.fault = some (some (.outOfBounds .programData 12)) := by decide
/-- InstructionsAreReadOnly: a step and an address of the window. -/
theorem witness_window_word :
    (freshWith 7).cfg.WellFormed ∧ (freshWith 7).cfg.stackLimit ≤ 7 ∧ 7 < (freshWith 7).cfg.dataBase := by decide
/-- OnlyStorChangesData: a step that changes a data word. -/
theorem witness_data_changes :
    let s := ((tiny [7, 0]).setWord 7 0x4000000B).setWord 8 1
    s.cfg.WellFormed ∧ (nextOf (step s)).map (fun t => t.mem.read 8) = some 7 ∧ s.cfg.dataBase ≤ 8 ∧
      s.mem.read 8 = 1 := by decide
/-- OutputOnlyGrows: a step that emits. -/
theorem witness_output_grows :
    (nextOf (step ((tiny [7]).setWord 7 0x40000008))).map State.out = some [.text [7]] := by decide
/-- FaultIsWrittenOnce: an execute phase from a Faulted state keeps the first report. -/
theorem witness_fault_kept :
    (nextOf (exec .add ((tiny []).raise .divisionByZero))).map (fun t => (t.fault, t.run))
      = some (some .divisionByZero, false) := by decide

/-- StaleSlotsAreUnobservable: two different states alike but for a stale slot. -/
theorem witness_stale :
    (tiny [5]).cfg.WellFormed ∧ SameButStale (tiny [5]) ((tiny [5]).setWord 3 9) ∧
      tiny [5] ≠ (tiny [5]).setWord 3 9 := by
  refine ⟨by decide, ⟨rfl, fun a h => ?_⟩, by decide⟩
  refine Memory.read_write_other _ _ fun e => h ?_
  subst e
  decide

/-- WindowsPartitionMemory: a boundary address of each window, existing and checked. -/
theorem witness_windows :
    Config.tiny.WellFormed ∧ 11 < Config.tiny.memSize ∧ checkBounds Config.tiny .stack 3 = true ∧
      checkBounds Config.tiny .instruction 4 = true ∧ checkBounds Config.tiny .programData 8 = true := by decide
/-- PushChecksThenWrites and PopAndPeekCheckFirst at an `SP` outside its range, which no run reaches. -/
theorem witness_sp_out_of_range :
    let s : State := { tiny [] with sp := 4 }
    s.cfg.WellFormed ∧ s.Running ∧ s.cfg.stackLimit ≤ s.sp.toNat + 1 ∧ s.cfg.stackLimit ≤ s.sp.toNat := by decide
theorem witness_pop_range :
    (tiny [1, 2, 3]).cfg.WellFormed ∧ (tiny [1, 2, 3]).Running ∧ 0 < (tiny [1, 2, 3]).sp.toNat ∧
      (tiny [1, 2, 3]).sp.toNat < (tiny [1, 2, 3]).cfg.stackLimit := by decide
/-- StackIsLastInFirstOut: as many words as fit. -/
theorem witness_lifo :
    (tiny []).InCycle ∧ (tiny []).sp.toNat + [10, 20, 30].length < (tiny []).cfg.stackLimit := by decide
/-- LoadCopiesProgram: a fresh session, a program that just fits and one that just does not. -/
theorem witness_load :
    let h := Session.fresh Config.tiny
    let s := h.machine
    h.runBegun = false ∧ s.cfg.WellFormed ∧ s.Running ∧ s.ip.toNat + 1 = s.cfg.stackLimit ∧
      [1, 2, 3, 4].length ≤ s.cfg.dataBase - s.cfg.stackLimit ∧
      s.cfg.dataBase - s.cfg.stackLimit < [1, 2, 3, 4, 5].length := by decide
/-- LoadAfterRunIsRefused: each of its ways to have begun a run alone. -/
theorem witness_load_after_run :
    (tiny []).cfg.stackLimit ≤ (tiny []).ip.toNat ∧
      (sessionOf (run 0 (Session.fresh Config.tiny))).map (fun u => (u.runBegun, u.machine.ip)) = some (true, 3) := by
  decide
/-- EndedRunIsFinal: a run that has ended. -/
theorem witness_ended_run :
    (nextOf (runFor 1 (freshWith 0x40000000))).map (fun t => (t.run, t.fault)) = some (false, none) := by decide
theorem witness_ended_session_run :
    (sessionOf (run 1 { machine := freshWith 0x40000000, runBegun := false })).map (fun u => u.machine.run)
      = some false := by decide
/-- FaultRegisterTellsErrorsApart: two records in range. -/
theorem witness_fault_records :
    faultInRange (some (.outOfBounds .stack 8589934591)) ∧ faultInRange none := by decide

end Sys2Proof.Tests
end

/-!
PROOF. The address windows and the bounds checker (20_memory.md R51 to R54), and what a push does in a Running state
(R57).
-/

namespace Sys2Proof.Machine

/-! ### The window of an address -/

/-- The one window that can hold an address: the two inner boundaries cut the addresses into three (R51). -/
def windowOf (c : Config) (a : Nat) : Region :=
  if a < c.stackLimit then .stack else if a < c.dataBase then .instruction else .programData

/-- The windows are the parts of the existing addresses that `windowOf` tells apart (R51, R52). -/
theorem inWindow_iff_windowOf {c : Config} (h : c.WellFormed) {k : Region} {a : Nat} :
    inWindow c k a ↔ a < c.memSize ∧ windowOf c a = k := by
  obtain ⟨_, hsd, hdm, _⟩ := h
  unfold windowOf
  cases k with
  | stack => split_ifs <;> simp <;> omega
  | instruction => split_ifs <;> simp <;> omega
  | programData => split_ifs <;> simp <;> omega

/-- A check accepts only addresses of its own window; the Stack check leaves out address 0 (R54). -/
theorem inWindow_of_checkBounds {c : Config} {k : Region} {a : Nat} (h : checkBounds c k a = true) :
    inWindow c k a := by
  cases k with
  | stack => exact ((checkBounds_stack c a).mp h).2
  | instruction => exact (checkBounds_instruction c a).mp h
  | programData => exact (checkBounds_programData c a).mp h

/-- Settles O53: `windowOf` names the window of an address, so no two windows share one. -/
theorem windowsPartitionMemory : Obligations.WindowsPartitionMemory := by
  intro c a hc
  have unique {k k' : Region} (h : inWindow c k a) (h' : inWindow c k' a) : k' = k :=
    ((inWindow_iff_windowOf hc).mp h').2.symm.trans ((inWindow_iff_windowOf hc).mp h).2
  constructor
  · intro ha
    have hin : inWindow c (windowOf c a) a := (inWindow_iff_windowOf hc).mpr ⟨ha, rfl⟩
    exact ⟨windowOf c a, hin, fun _ => unique hin⟩
  · intro k hk
    have hin := inWindow_of_checkBounds hk
    exact ⟨checkBounds_lt_memSize hc hk, hin, fun _ hk' => unique hin (inWindow_of_checkBounds hk')⟩

/-- Settles O52: one law of the checker a window. -/
theorem checkBoundsRanges : Obligations.CheckBoundsRanges := fun c a =>
  ⟨checkBounds_stack c a, checkBounds_instruction c a, checkBounds_programData c a⟩

/-! ### Push -/

/-- In a Running state `FAULT` holds no error, so the fatal entry records the one raised (R27, R175). -/
theorem raise_of_running {s : State} (h : s.Running) (e : FatalError) :
    s.raise e = { s with fault := some e, run := false } := by
  simp [State.raise, h.2]

/-- Settles O54: `push_eq` on either side of `STACK_LIMIT`, where the failing side is the fatal entry. -/
theorem pushChecksThenWrites : Obligations.PushChecksThenWrites := by
  intro s v hc hs
  constructor
  · intro hroom
    rw [push_eq hc, if_pos hroom]
    rfl
  · intro hfull
    rw [push_eq hc, if_neg (Nat.not_lt.mpr hfull), raise_of_running hs]

end Sys2Proof.Machine

/-!
PROOF. The fields of a word and the encoder as numbers (30_encoding.md R9, R92, R93, R95).
-/

namespace Sys2Proof

/-- The two bits above bit 29 are the quotient by `2^30`, which is below 4 for every word. -/
theorem toNat_classify (w : Word) : (classify w).toNat = w.toNat / 2 ^ 30 := by
  have hq : w.toNat / 2 ^ 30 < 2 ^ 2 := Nat.div_lt_of_lt_mul w.isLt
  rw [classify, BitVec.extractLsb'_toNat, Nat.shiftRight_eq_div_pow, Nat.mod_eq_of_lt hq]

theorem toNat_payload (w : Word) : (payload w).toNat = w.toNat % 2 ^ 30 := by
  rw [payload, BitVec.extractLsb'_toNat, Nat.shiftRight_zero]

/-- The tag's bits lie above all bits of a payload, so joining the two fields adds them. -/
theorem toNat_packWord (t : Tag) (p : Payload) : (packWord t p).toNat = t.toNat * 2 ^ 30 + p.toNat := by
  rw [packWord, BitVec.toNat_append, ← Nat.shiftLeft_add_eq_or_of_lt p.isLt, Nat.shiftLeft_eq]

/-- Settles O1: the fields by their numeric laws, the latch by definition. -/
theorem classifyAndPayloadFields : Obligations.ClassifyAndPayloadFields :=
  ⟨fun w => ⟨toNat_classify w, toNat_payload w⟩, fun _ _ => rfl⟩

/-- Settles O2: the numeric law of the encoder, and the laws of the codec in both directions. -/
theorem encoderInvertsCodec : Obligations.EncoderInvertsCodec :=
  ⟨fun t p => ⟨toNat_packWord t p, classify_packWord t p, payload_packWord t p⟩, packWord_classify_payload⟩

end Sys2Proof

/-!
PROOF. The literal words LIT and NLIT (40_literals.md): their words decode back to them, and each is a push of its
payload.
-/

namespace Sys2Proof

/-- R97: zero extension keeps the payload's number. -/
theorem zeroExtend_eq_ofNat (p : Payload) : zeroExtend p = BitVec.ofNat 32 p.toNat :=
  (BitVec.ofNat_toNat 32 p).symm

/-- R91: tag 0 is a positive literal under every numbering. -/
@[simp] theorem decode_packWord_zero (ids : OpIds) (p : Payload) : decode ids (packWord 0 p) = .instr (.lit p) := by
  simp [decode]

/-- R91: tag 2 is a negative literal under every numbering. -/
@[simp] theorem decode_packWord_two (ids : OpIds) (p : Payload) : decode ids (packWord 2 p) = .instr (.nlit p) := by
  simp [decode]

end Sys2Proof

namespace Sys2Proof.Machine

/-- A push as a whole execute phase, with a free slot (R57, R120). -/
theorem push_finish_of_room {s : State} (h : s.InCycle) (v : Word) (hroom : s.sp.toNat + 1 < s.cfg.stackLimit) :
    (push v s).finish = .next { s with
      sp := BitVec.ofNat 32 (s.sp.toNat + 1), mem := s.mem.write (s.sp.toNat + 1) v } := by
  obtain ⟨hc, hrun, _⟩ := h
  rw [(pushChecksThenWrites s v hc hrun).1 hroom, finish_ok]

/-- A push as a whole execute phase, on a full stack: the address refused is `STACK_LIMIT` (R57, R120). -/
theorem push_finish_of_full {s : State} (h : s.InCycle) (v : Word) (hfull : s.sp.toNat + 1 = s.cfg.stackLimit) :
    (push v s).finish = .next { s with fault := some (.outOfBounds .stack s.cfg.stackLimit), run := false } := by
  obtain ⟨hc, hrun, _⟩ := h
  rw [(pushChecksThenWrites s v hc hrun).2 hfull.ge, finish_fatal, hfull]

/-- R120: LIT pushes the number its payload is. -/
theorem exec_lit (imm : Payload) (s : State) : exec (.lit imm) s = (push (BitVec.ofNat 32 imm.toNat) s).finish := by
  rw [← zeroExtend_eq_ofNat]
  rfl

/-- R121: NLIT and LIT of one payload have the same execute phase. -/
theorem exec_nlit_eq_exec_lit (imm : Payload) (s : State) : exec (.nlit imm) s = exec (.lit imm) s := rfl

/-- Settles O12: LIT is a push of its payload, with a free slot or on a full stack. -/
theorem litPushesPayload : Obligations.LitPushesPayload := by
  intro s imm hs
  rw [exec_lit]
  exact ⟨⟨rfl, decode_packWord_zero _ imm⟩, push_finish_of_room hs _, push_finish_of_full hs _⟩

/-- Settles O13: the tag decodes to NLIT, and from there on NLIT is LIT. -/
theorem nlitPushesUnsignedPayload : Obligations.NlitPushesUnsignedPayload := by
  intro s imm hs
  rw [exec_nlit_eq_exec_lit]
  exact ⟨⟨rfl, decode_packWord_two _ imm⟩, (litPushesPayload s imm hs).2⟩

end Sys2Proof.Machine

/-!
PROOF. The words of the primitives (30_encoding.md R98, R99), the binary operations on two words and on fewer
(42_arithmetic.md R130, R136), and with them ADD and SUB (R132, R133).
-/

namespace Sys2Proof

/-! ### The word of a primitive -/

/-- R99: the encoder gives every primitive tag 1 and its opcode id. -/
theorem encode_instr (ids : OpIds) (m : Op) : encode ids m.instr = packWord 1 (ids.id m) := by
  cases m <;> rfl

/-- R98: under an injective numbering a tag-1 word with the id of a primitive decodes to it. -/
theorem decode_packWord_one_id {ids : OpIds} (h : ids.Injective) (m : Op) :
    decode ids (packWord 1 (ids.id m)) = .instr m.instr := by
  simp [decode, decodePrimitive, lookupOp_id h]

end Sys2Proof

namespace Sys2Proof.Machine

/-- R98, R99: in an execute phase's state the word of a primitive is the one of tag 1 and its opcode id. -/
theorem hasWord_instr {s : State} (h : s.InCycle) (m : Op) : HasWord s.cfg.opid m.instr 1 (s.cfg.opid.id m) := by
  obtain ⟨⟨_, _, _, _, hinj⟩, _⟩ := h
  exact ⟨encode_instr _ m, decode_packWord_one_id hinj m⟩

/-! ### The operand pair -/

/-- Lowering `SP` by a number stays below `2^32`. -/
theorem toNat_ofNat_toNat_sub (v : Word) (n : Nat) : (BitVec.ofNat 32 (v.toNat - n)).toNat = v.toNat - n :=
  toNat_ofNat_of_lt (Nat.lt_of_le_of_lt (Nat.sub_le _ _) v.isLt)

/-- R58: a pop of a stack that is not empty. -/
theorem pop_of_nonempty {s : State} (h : s.InCycle) (hpos : 0 < s.sp.toNat) :
    pop s = .ok s.top (s.setSp (s.sp - 1)) := by
  obtain ⟨hc, _, hlt⟩ := h
  rw [pop_eq hc, if_pos ⟨hpos, hlt⟩]

/-- R58: a pop of an empty stack is refused at address 0. -/
theorem pop_of_empty {s : State} (h : s.InCycle) (hzero : s.sp = 0) :
    pop s = .fatal { s with sp := 0, fault := some (.outOfBounds .stack 0), run := false } := by
  obtain ⟨hc, hrun, _⟩ := h
  rw [pop_eq hc, if_neg (by simp [hzero]), raise_of_running hrun, hzero]
  rfl

/-- A pop leaves a state in which the execute phase can go on (R37 a). -/
theorem inCycle_setSp_sub_one {s : State} (h : s.InCycle) (hpos : 0 < s.sp.toNat) :
    (s.setSp (s.sp - 1)).InCycle := by
  obtain ⟨hc, hrun, hlt⟩ := h
  refine ⟨hc, hrun, ?_⟩
  rw [setSp_sp, setSp_cfg, toNat_sub_one hpos]
  omega

/-- R130: with two words, the operands are the second word and the top. -/
theorem popPair_of_two {s : State} (h : s.InCycle) (htwo : 2 ≤ s.sp.toNat) :
    popPair s = .ok (s.second, s.top) (s.setSp (BitVec.ofNat 32 (s.sp.toNat - 2))) := by
  have hpos : 0 < s.sp.toNat := by omega
  have hsub := toNat_sub_one hpos
  have hpos' : 0 < (s.sp - 1).toNat := by omega
  have hsub' : s.sp - 1 - 1 = BitVec.ofNat 32 (s.sp.toNat - 2) := by
    apply BitVec.eq_of_toNat_eq
    rw [toNat_sub_one hpos', hsub, toNat_ofNat_toNat_sub, Nat.sub_sub]
  unfold popPair
  rw [pop_of_nonempty h hpos, andThen_ok, pop_of_nonempty (inCycle_setSp_sub_one h hpos) hpos', andThen_ok]
  simp only [State.top, State.second, setSp_sp, setSp_mem, hsub, hsub']
  rfl

/-- R136: with one word or none, the pop that finds the stack empty is refused; a word popped before stays popped. -/
theorem popPair_of_fewer {s : State} (h : s.InCycle) (hfew : s.sp.toNat ≤ 1) :
    popPair s = .fatal { s with sp := 0, fault := some (.outOfBounds .stack 0), run := false } := by
  unfold popPair
  rcases Nat.eq_zero_or_pos s.sp.toNat with hzero | hpos
  · rw [pop_of_empty h (BitVec.eq_of_toNat_eq hzero), andThen_fatal]
  · have hempty : s.sp - 1 = 0 := by
      apply BitVec.eq_of_toNat_eq
      rw [toNat_sub_one hpos]
      exact Nat.sub_eq_zero_of_le hfew
    rw [pop_of_nonempty h hpos, andThen_ok, pop_of_empty (inCycle_setSp_sub_one h hpos) hempty, andThen_fatal]
    rfl

/-! ### The binary operations -/

/-- After the operand pair is popped a push cannot overflow: it lands in the slot of the second word (R57, R130). -/
theorem push_after_popPair {s : State} (h : s.InCycle) (v : Word) (htwo : 2 ≤ s.sp.toNat) :
    push v (s.setSp (BitVec.ofNat 32 (s.sp.toNat - 2))) =
      .ok () ((s.setSp (s.sp - 1)).setWord (s.sp.toNat - 1) v) := by
  obtain ⟨hc, _, hlt⟩ := h
  rw [← push_after_two_pops v htwo, push_eq (by rwa [setSp_cfg]), if_pos]
  rw [setSp_sp, setSp_cfg, toNat_ofNat_toNat_sub]
  omega

/-- A binary operation with two words: its result replaces them, in the slot of the second (R130). -/
theorem binary_finish_of_two {s : State} (h : s.InCycle) (f : Word → Word → Word) (htwo : 2 ≤ s.sp.toNat) :
    (binary f s).finish = .next { s with
      sp := s.sp - 1, mem := s.mem.write (s.sp.toNat - 1) (f s.second s.top) } := by
  unfold binary
  rw [popPair_of_two h htwo, andThen_ok, push_after_popPair h _ htwo]
  rfl

/-- A binary operation with one word or none underflows before it computes anything (R136). -/
theorem binary_finish_of_fewer {s : State} (h : s.InCycle) (f : Word → Word → Word) (hfew : s.sp.toNat ≤ 1) :
    (binary f s).finish = .next { s with sp := 0, fault := some (.outOfBounds .stack 0), run := false } := by
  unfold binary
  rw [popPair_of_fewer h hfew, andThen_fatal, finish_fatal]

/-- R131, R132: the ALU's sum is the exact one reduced modulo `2^32`. -/
theorem aluAdd_eq (a b : Word) : aluAdd a b = BitVec.ofNat 32 ((a.toNat + b.toNat) % 2 ^ 32) := by
  apply BitVec.eq_of_toNat_eq
  rw [aluAdd, BitVec.toNat_ofNat, BitVec.toNat_ofNat, Nat.mod_mod]

/-- R133: the ALU's difference is the exact one, with `2^32` added when it is negative. -/
theorem aluSub_eq (a b : Word) :
    aluSub a b = BitVec.ofNat 32 (if b.toNat ≤ a.toNat then a.toNat - b.toNat else a.toNat + 2 ^ 32 - b.toNat) := by
  have ha := a.isLt
  have hb := b.isLt
  apply BitVec.eq_of_toNat_eq
  rw [aluSub, BitVec.toNat_ofInt, BitVec.toNat_ofNat]
  split_ifs with hle
  · omega
  · omega

/-! ### ADD and SUB -/

theorem exec_add (s : State) : exec .add s = (binary aluAdd s).finish := rfl

theorem exec_sub (s : State) : exec .sub s = (binary aluSub s).finish := rfl

/-- Settles O15: ADD is the binary operation of the sum modulo `2^32`. -/
theorem addReplacesTwoBySum : Obligations.AddReplacesTwoBySum := by
  intro s hs
  rw [exec_add, ← aluAdd_eq]
  exact ⟨hasWord_instr hs .add, binary_finish_of_two hs aluAdd, binary_finish_of_fewer hs aluAdd⟩

/-- Settles O16: SUB is the binary operation of the difference, the second word the minuend. -/
theorem subReplacesTwoByDifference : Obligations.SubReplacesTwoByDifference := by
  intro s hs
  rw [exec_sub, ← aluSub_eq]
  exact ⟨hasWord_instr hs .sub, binary_finish_of_two hs aluSub, binary_finish_of_fewer hs aluSub⟩

end Sys2Proof.Machine

/-!
PROOF. Control transfer (44_control_transfer.md): what JMP and JZ share, a popped and checked target (R145), and with it
the two instructions (R146, R147).
-/

namespace Sys2Proof.Machine

/-! ### The target -/

/-- What JMP and JZ begin with: pop the target, check it, and go on with it (R145). -/
def onTarget (k : Word → State → Res Unit) (s : State) : Res Unit :=
  (pop s).andThen fun t s => (check .instruction (jumpTarget s.cfg t) s).andThen fun _ s => k t s

/-- JZ once its target is accepted: pop the condition, and jump if it is 0 (R147). -/
def jumpOnZero (t : Word) (s : State) : Res Unit :=
  (pop s).andThen fun c s => .ok () (if isZero c then s.setIp (BitVec.ofNat 32 (jumpTarget s.cfg t)) else s)

theorem exec_jmp (s : State) :
    exec .jmp s = (onTarget (fun t s => .ok () (s.setIp (BitVec.ofNat 32 (jumpTarget s.cfg t)))) s).finish := rfl

theorem exec_jz (s : State) : exec .jz s = (onTarget jumpOnZero s).finish := rfl

/-- R145: a target in the Instructions window is popped, and the instruction goes on. -/
theorem onTarget_of_lt {s : State} (h : s.InCycle) (k : Word → State → Res Unit) (hpos : 1 ≤ s.sp.toNat)
    (hin : s.top.toNat + s.cfg.stackLimit < s.cfg.dataBase) :
    onTarget k s = k s.top (s.setSp (s.sp - 1)) := by
  have hok : checkBounds s.cfg .instruction (jumpTarget s.cfg s.top) = true :=
    (checkBounds_instruction _ _).mpr ⟨Nat.le_add_left _ _, hin⟩
  rw [onTarget, pop_of_nonempty h hpos, andThen_ok, check_eq, setSp_cfg, if_pos hok, andThen_ok]

/-- R145: any other target is popped too, and raises with the exact sum. -/
theorem onTarget_of_le {s : State} (h : s.InCycle) (k : Word → State → Res Unit) (hpos : 1 ≤ s.sp.toNat)
    (hout : s.cfg.dataBase ≤ s.top.toNat + s.cfg.stackLimit) :
    onTarget k s = .fatal { s with
      sp := s.sp - 1,
      fault := some (.outOfBounds .instruction (s.top.toNat + s.cfg.stackLimit)), run := false } := by
  have hno : ¬checkBounds s.cfg .instruction (jumpTarget s.cfg s.top) = true := fun hok =>
    Nat.not_lt.mpr hout ((checkBounds_instruction _ _).mp hok).2
  obtain ⟨_, hrun, _⟩ := inCycle_setSp_sub_one h hpos
  rw [onTarget, pop_of_nonempty h hpos, andThen_ok, check_eq, setSp_cfg, if_neg hno, andThen_fatal,
    raise_of_running hrun]
  rfl

/-- R58, R145: with no target on the stack the pop raises, and nothing else changes. -/
theorem onTarget_of_empty {s : State} (h : s.InCycle) (k : Word → State → Res Unit) (hzero : s.sp.toNat = 0) :
    onTarget k s = .fatal { s with fault := some (.outOfBounds .stack 0), run := false } := by
  have hsp : s.sp = 0 := BitVec.eq_of_toNat_eq hzero
  rw [onTarget, pop_of_empty h hsp, andThen_fatal, hsp]

/-! ### JMP -/

/-- Settles O20: JMP is the target's pop and check, and then the write of `IP`. -/
theorem jmpSetsBiasedTarget : Obligations.JmpSetsBiasedTarget := by
  intro s hs
  rw [exec_jmp]
  refine ⟨hasWord_instr hs .jmp, fun hpos hin => ?_, fun hpos hout => ?_, fun hzero => ?_⟩
  · rw [onTarget_of_lt hs _ hpos hin]
    rfl
  · rw [onTarget_of_le hs _ hpos hout, finish_fatal]
  · rw [onTarget_of_empty hs _ hzero, finish_fatal]

/-! ### JZ -/

/-- R58: a second pop takes the second word; it is the later half of `popPair_of_two`. -/
theorem pop_after_pop_of_two {s : State} (h : s.InCycle) (htwo : 2 ≤ s.sp.toNat) :
    pop (s.setSp (s.sp - 1)) = .ok s.second (s.setSp (BitVec.ofNat 32 (s.sp.toNat - 2))) := by
  have hpair := popPair_of_two h htwo
  rw [popPair, pop_of_nonempty h (by omega), andThen_ok] at hpair
  generalize pop (s.setSp (s.sp - 1)) = r at hpair ⊢
  cases r with
  | ok v t => simpa using hpair
  | fatal t => simp at hpair
  | absent a => simp at hpair

/-- The second pop of a stack that held one word is refused at address 0. -/
theorem pop_after_pop_of_one {s : State} (h : s.InCycle) (hone : s.sp.toNat = 1) :
    pop (s.setSp (s.sp - 1)) = .fatal { s with sp := 0, fault := some (.outOfBounds .stack 0), run := false } := by
  have hpos : 0 < s.sp.toNat := by omega
  have hempty : s.sp - 1 = 0 := BitVec.eq_of_toNat_eq (by rw [toNat_sub_one hpos, hone]; rfl)
  rw [pop_of_empty (inCycle_setSp_sub_one h hpos) hempty]
  rfl

/-- R147: the condition is the whole word. -/
theorem isZero_iff (v : Word) : isZero v = true ↔ v = 0 := beq_iff_eq

/-- R147: an accepted target and a condition of 0: both are popped, and `IP` takes the target. -/
theorem jumpOnZero_of_zero {s : State} (h : s.InCycle) (t : Word) (htwo : 2 ≤ s.sp.toNat) (hc : s.second = 0) :
    jumpOnZero t (s.setSp (s.sp - 1)) = .ok () { s with
      sp := BitVec.ofNat 32 (s.sp.toNat - 2), ip := BitVec.ofNat 32 (t.toNat + s.cfg.stackLimit) } := by
  rw [jumpOnZero, pop_after_pop_of_two h htwo, andThen_ok, if_pos ((isZero_iff _).mpr hc)]
  rfl

/-- R147: an accepted target and a condition that is not 0: both are popped, and nothing else happens. -/
theorem jumpOnZero_of_ne_zero {s : State} (h : s.InCycle) (t : Word) (htwo : 2 ≤ s.sp.toNat) (hc : s.second ≠ 0) :
    jumpOnZero t (s.setSp (s.sp - 1)) = .ok () { s with sp := BitVec.ofNat 32 (s.sp.toNat - 2) } := by
  rw [jumpOnZero, pop_after_pop_of_two h htwo, andThen_ok, if_neg (mt (isZero_iff _).mp hc)]
  rfl

/-- Settles O21: the target as for JMP, then the pop of the condition and the test. -/
theorem jzJumpsOnZero : Obligations.JzJumpsOnZero := by
  intro s hs
  rw [exec_jz]
  refine ⟨hasWord_instr hs .jz, fun htwo hin hc => ?_, fun htwo hin hc => ?_, fun hpos hout => ?_,
    fun hone hin => ?_, fun hzero => ?_⟩
  · rw [onTarget_of_lt hs _ (Nat.le_of_succ_le htwo) hin, jumpOnZero_of_zero hs _ htwo hc, finish_ok]
  · rw [onTarget_of_lt hs _ (Nat.le_of_succ_le htwo) hin, jumpOnZero_of_ne_zero hs _ htwo hc, finish_ok]
  · rw [onTarget_of_le hs _ hpos hout, finish_fatal]
  · rw [onTarget_of_lt hs _ hone.ge hin, jumpOnZero, pop_after_pop_of_one hs hone, andThen_fatal, finish_fatal]
  · rw [onTarget_of_empty hs _ hzero, finish_fatal]

end Sys2Proof.Machine

/-!
PROOF. Program-data access (46_load_store.md): the checked accesses at a biased address (R155), and with them LOAD
(R156) and STOR (R157). The accesses are stated in the state that the pops of LOAD and STOR leave, `SP` at some `n`.
-/

namespace Sys2Proof.Machine

/-! ### The access at a biased address -/

/-- R155: a biased address cannot lie below the Program-data window, so its check is one comparison. -/
theorem checkBounds_dataAddress (c : Config) (a : Word) :
    checkBounds c .programData (dataAddress c a) = true ↔ a.toNat + c.dataBase < c.memSize := by
  rw [checkBounds_programData, dataAddress]
  exact and_iff_right (Nat.le_add_left _ _)

/-- R155: an offset outside the window raises with the exact sum; what was popped stays popped. -/
theorem check_data_of_le {s : State} (hrun : s.Running) (n a : Word)
    (hout : s.cfg.memSize ≤ a.toNat + s.cfg.dataBase) :
    check .programData (dataAddress s.cfg a) (s.setSp n) = .fatal { s with
      sp := n, fault := some (.outOfBounds .programData (a.toNat + s.cfg.dataBase)), run := false } := by
  have hno : ¬checkBounds s.cfg .programData (dataAddress s.cfg a) = true :=
    mt (checkBounds_dataAddress _ _).mp (Nat.not_lt.mpr hout)
  have hrun' : (s.setSp n).Running := hrun
  rw [check_eq, setSp_cfg, if_neg hno, raise_of_running hrun']
  rfl

/-- R155: a read at an offset in the window gives the data word. -/
theorem readData_of_lt {s : State} (hc : s.cfg.WellFormed) (n a : Word)
    (hin : a.toNat + s.cfg.dataBase < s.cfg.memSize) :
    readChecked .programData (dataAddress s.cfg a) (s.setSp n) =
      .ok (s.mem.read (a.toNat + s.cfg.dataBase)) (s.setSp n) := by
  rw [readChecked_eq (by rwa [setSp_cfg]), setSp_cfg, if_pos ((checkBounds_dataAddress _ _).mpr hin), setSp_mem,
    dataAddress]

/-- R155: a write at an offset in the window replaces the data word. -/
theorem writeData_of_lt {s : State} (hc : s.cfg.WellFormed) (n a v : Word)
    (hin : a.toNat + s.cfg.dataBase < s.cfg.memSize) :
    writeChecked .programData (dataAddress s.cfg a) v (s.setSp n) =
      .ok () ((s.setSp n).setWord (a.toNat + s.cfg.dataBase) v) := by
  rw [writeChecked_eq (by rwa [setSp_cfg]), setSp_cfg, if_pos ((checkBounds_dataAddress _ _).mpr hin), dataAddress]

/-! ### LOAD -/

theorem exec_load (s : State) :
    exec .load s = ((pop s).andThen fun a s =>
      (readChecked .programData (dataAddress s.cfg a) s).andThen fun v s => push v s).finish := rfl

/-- R156: with an address on the stack, LOAD pops it, makes the checked read and pushes the word. -/
theorem exec_load_of_nonempty {s : State} (h : s.InCycle) (hpos : 0 < s.sp.toNat) :
    exec .load s = ((readChecked .programData (dataAddress s.cfg s.top) (s.setSp (s.sp - 1))).andThen
      fun v s => push v s).finish := by
  rw [exec_load, pop_of_nonempty h hpos, andThen_ok, setSp_cfg]

/-- After a pop a push cannot overflow: it refills the slot the pop freed, and `SP` is as before (R57, R58). -/
theorem push_after_pop {s : State} (h : s.InCycle) (v : Word) (hpos : 0 < s.sp.toNat) :
    push v (s.setSp (s.sp - 1)) = .ok () (s.setWord s.sp.toNat v) := by
  obtain ⟨hc, _, hlt⟩ := h
  have hback : (s.sp - 1).toNat + 1 = s.sp.toNat := by
    rw [toNat_sub_one hpos, Nat.sub_add_cancel hpos]
  rw [push_eq (by rwa [setSp_cfg]), setSp_sp, hback, setSp_cfg, if_pos hlt, BitVec.ofNat_toNat, BitVec.setWidth_eq]
  rfl

/-- Settles O25: the pop, then the read on either side of `MEM_SIZE`, then a push that has room. -/
theorem loadReplacesAddressByWord : Obligations.LoadReplacesAddressByWord := by
  intro s hs
  have ⟨hc, hrun, _⟩ := hs
  refine ⟨hasWord_instr hs .load, fun hpos hin => ?_, Memory.read_of_lookup_none, fun hpos hout => ?_,
    fun hzero => ?_⟩
  · rw [exec_load_of_nonempty hs hpos, readData_of_lt hc _ _ hin, andThen_ok, push_after_pop hs _ hpos]
    rfl
  · rw [exec_load_of_nonempty hs hpos, readChecked, check_data_of_le hrun _ _ hout, andThen_fatal, andThen_fatal,
      finish_fatal]
  · have hsp : s.sp = 0 := BitVec.eq_of_toNat_eq hzero
    rw [exec_load, pop_of_empty hs hsp, andThen_fatal, finish_fatal, hsp]

/-! ### STOR -/

/-- R157: with two words, STOR pops both, the address on top, before its checked write. -/
theorem exec_stor_of_two {s : State} (h : s.InCycle) (htwo : 2 ≤ s.sp.toNat) :
    exec .stor s = (writeChecked .programData (dataAddress s.cfg s.top) s.second
      (s.setSp (BitVec.ofNat 32 (s.sp.toNat - 2)))).finish := by
  rw [exec_stor_eq, popPair_of_two h htwo, andThen_ok, setSp_cfg]

/-- Settles O26: the operand pair, then the write on either side of `MEM_SIZE`. -/
theorem storWritesDataWord : Obligations.StorWritesDataWord := by
  intro s hs
  have ⟨hc, hrun, _⟩ := hs
  refine ⟨hasWord_instr hs .stor, fun htwo hin => ?_, fun htwo hout => ?_, fun hfew => ?_⟩
  · rw [exec_stor_of_two hs htwo, writeData_of_lt hc _ _ _ hin]
    rfl
  · rw [exec_stor_of_two hs htwo, writeChecked, check_data_of_le hrun _ _ hout, andThen_fatal, finish_fatal]
  · rw [exec_stor_eq, popPair_of_fewer hs hfew, andThen_fatal, finish_fatal]

end Sys2Proof.Machine

/-!
PROOF. Unknown opcode ids (47_unknown_and_reserved.md): the decoder's rejection, the cycle once its fetch succeeds
(R103), and with them UNKNOWN (R160).
-/

namespace Sys2Proof

/-- R100: under every numbering a tag-1 word whose payload is no opcode id is rejected by that payload. -/
theorem decode_packWord_one_of_no_id {ids : OpIds} {id : Payload} (hno : ∀ m : Op, ids.id m ≠ id) :
    decode ids (packWord 1 id) = .unknownOpcode id := by
  simp [decode, decodePrimitive, lookupOp_eq_none.mpr hno]

end Sys2Proof

namespace Sys2Proof.Machine

/-- R103: with the next address in the Instructions window, a step in a Running state is the execute phase on the word
there, `IP` advanced to it and `TR`, `DR` latched. -/
theorem step_of_fetch {s : State} (hc : s.cfg.WellFormed) (hrun : s.Running)
    (hlow : s.cfg.stackLimit ≤ s.ip.toNat + 1) (hhigh : s.ip.toNat + 1 < s.cfg.dataBase) :
    step s = execWord (s.mem.read (s.ip.toNat + 1))
      ((s.setIp (BitVec.ofNat 32 (s.ip.toNat + 1))).latch (s.mem.read (s.ip.toNat + 1))) := by
  rcases step_cases hc with ⟨hstopped, _⟩ | ⟨_, hout, _⟩ | ⟨_, _, _, hstep⟩
  · exact absurd ((isRunning_iff s).mpr hrun) (by simp [hstopped])
  · exact absurd ⟨hlow, hhigh⟩ hout
  · exact hstep

/-- R160: in a Running state the execute phase on a tag-1 word whose payload is no opcode id records the error and
clears `RUN`. -/
theorem execWord_of_no_id {s : State} {id : Payload} (hrun : s.Running) (hno : ∀ m : Op, s.cfg.opid.id m ≠ id) :
    execWord (packWord 1 id) s = .next { s with fault := some (.unknownOpcode id), run := false } := by
  rw [← raise_of_running hrun]
  simp only [execWord, decode_packWord_one_of_no_id hno, execUnknown]

/-- Settles O8: the fetch succeeds, and leaves a Running state of the same numbering, in which the word is unknown. -/
theorem stepOnUnknownIdFaults : Obligations.StepOnUnknownIdFaults := by
  intro s id hc hrun hlow hhigh hword hno
  have hexec := execWord_of_no_id
    (s := (s.setIp (BitVec.ofNat 32 (s.ip.toNat + 1))).latch (packWord 1 id)) hrun hno
  rw [step_of_fetch hc hrun hlow hhigh, hword, hexec, State.latch, classify_packWord, payload_packWord]
  rfl

end Sys2Proof.Machine

/-!
PROOF. The host's load (70_reset_and_hazards.md R201, R202): a list of words written to consecutive addresses, the copy
as such a list cut off at the end of the Instructions window, and with them what a load leaves.
-/

namespace Sys2Proof.Machine

/-! ### Words at consecutive addresses -/

/-- The words of a list written in order to `a`, `a + 1` and so on. -/
def Memory.writeWords : Memory → Nat → List Word → Memory
  | m, _, [] => m
  | m, a, w :: ws => Memory.writeWords (m.write a w) (a + 1) ws

/-- Outside the addresses written every word is as before. -/
theorem Memory.read_writeWords_other (m : Memory) (a : Nat) (ws : List Word) {b : Nat}
    (h : ¬(a ≤ b ∧ b < a + ws.length)) : (m.writeWords a ws).read b = m.read b := by
  induction ws generalizing m a with
  | nil => rfl
  | cons w ws ih =>
    rw [List.length_cons] at h
    rw [writeWords, ih (m.write a w) (a + 1) (by omega), read_write_other m w (by omega)]

/-- Each word is at its address: no later one is written over it. -/
theorem Memory.read_writeWords (m : Memory) (a : Nat) (ws : List Word) (i : Nat) (h : i < ws.length) :
    (m.writeWords a ws).read (a + i) = ws[i] := by
  induction ws generalizing m a i with
  | nil => exact absurd h (Nat.not_lt_zero i)
  | cons w ws ih =>
    rw [writeWords]
    cases i with
    | zero => rw [read_writeWords_other _ _ _ (by omega), Nat.add_zero, read_write_same, List.getElem_cons_zero]
    | succ i =>
      have hnext : a + (i + 1) = a + 1 + i := by omega
      rw [hnext, ih _ _ i (Nat.lt_of_succ_lt_succ h), List.getElem_cons_succ]

/-- `MEM[a], MEM[a + 1], ... <- ws`, unchecked. -/
def State.setWords (s : State) (a : Nat) (ws : List Word) : State := { s with mem := s.mem.writeWords a ws }

theorem setWords_nil (s : State) (a : Nat) : s.setWords a [] = s := rfl

theorem setWords_cons (s : State) (a : Nat) (w : Word) (ws : List Word) :
    s.setWords a (w :: ws) = (s.setWord a w).setWords (a + 1) ws := rfl

/-! ### The copy -/

/-- The part of a program, from index `i` on, that the Instructions window holds, written there (R201). -/
def State.copyFrom (i : Nat) (ws : List Word) (s : State) : State :=
  s.setWords (s.cfg.stackLimit + i) (ws.take (s.cfg.dataBase - (s.cfg.stackLimit + i)))

/-- With room for a word, it is copied and the copy goes on one address higher. -/
theorem copyFrom_cons {s : State} {i : Nat} (h : s.cfg.stackLimit + i < s.cfg.dataBase) (w : Word) (ws : List Word) :
    s.copyFrom i (w :: ws) = (s.setWord (s.cfg.stackLimit + i) w).copyFrom (i + 1) ws := by
  have hroom : s.cfg.dataBase - (s.cfg.stackLimit + i) = s.cfg.dataBase - (s.cfg.stackLimit + (i + 1)) + 1 := by
    omega
  rw [State.copyFrom, hroom, List.take_succ_cons, setWords_cons]
  rfl

/-- At the end of the window nothing is copied. -/
theorem copyFrom_of_eq {s : State} {i : Nat} (h : s.cfg.stackLimit + i = s.cfg.dataBase) (ws : List Word) :
    s.copyFrom i ws = s := by
  rw [State.copyFrom, h, Nat.sub_self, List.take_zero, setWords_nil]

/-- R201, R202: the loop of the copy writes the words that fit, and where there are more of them it raises at
`DATA_BASE`, the first address past the window. -/
theorem loadFrom_eq {s : State} (hc : s.cfg.WellFormed) (ws : List Word) (i : Nat)
    (hi : s.cfg.stackLimit + i ≤ s.cfg.dataBase) :
    loadFrom i ws s =
      if s.cfg.stackLimit + i + ws.length ≤ s.cfg.dataBase then .ok () (s.copyFrom i ws)
      else .fatal ((s.copyFrom i ws).raise (.outOfBounds .instruction s.cfg.dataBase)) := by
  induction ws generalizing s i with
  | nil =>
    rw [if_pos (by simpa using hi), State.copyFrom, List.take_nil, setWords_nil]
    rfl
  | cons w ws ih =>
    rw [loadFrom, writeChecked_eq hc]
    rcases Nat.lt_or_eq_of_le hi with hin | hend
    · have hlength : s.cfg.stackLimit + i + (w :: ws).length = s.cfg.stackLimit + (i + 1) + ws.length := by
        rw [List.length_cons]
        omega
      have hrest := ih (s := s.setWord (s.cfg.stackLimit + i) w) hc (i + 1) hin
      rw [if_pos ((checkBounds_instruction _ _).mpr ⟨Nat.le_add_right _ _, hin⟩), andThen_ok, hrest, hlength,
        copyFrom_cons hin, setWord_cfg]
    · rw [if_neg (by simp [hend]), if_neg (by simp [hend]), andThen_fatal, hend, copyFrom_of_eq hend]

/-- R201: each word that fits is copied to its address. -/
theorem read_copyFrom_zero (s : State) (ws : List Word) (i : Nat) (hi : i < ws.length)
    (hin : s.cfg.stackLimit + i < s.cfg.dataBase) :
    (s.copyFrom 0 ws).mem.read (s.cfg.stackLimit + i) = ws[i] := by
  have htake : i < (ws.take (s.cfg.dataBase - s.cfg.stackLimit)).length := by
    rw [List.length_take]
    omega
  exact (Memory.read_writeWords _ _ _ _ htake).trans List.getElem_take

/-- R201, R202: the copy writes no address past the program or past the window. -/
theorem read_copyFrom_zero_other (s : State) (ws : List Word) (a : Nat)
    (ha : ¬(s.cfg.stackLimit ≤ a ∧ a < s.cfg.stackLimit + ws.length ∧ a < s.cfg.dataBase)) :
    (s.copyFrom 0 ws).mem.read a = s.mem.read a := by
  refine Memory.read_writeWords_other _ _ _ ?_
  rw [Nat.add_zero, List.length_take]
  omega

/-- Settles O57: the load is the copy from index 0, which ends Running if the program fits and in the fatal entry if
it does not; the memory it leaves is the same in both cases. -/
theorem loadCopiesProgram : Obligations.LoadCopiesProgram := by
  rintro ws h s rfl hbegun hc hrun hip
  have hload (t : State) (ht : (loadFrom 0 ws h.machine).finish = .next t) :
      load ws h = .next { h with machine := t } :=
    load_next_iff.mpr ⟨loadable_iff.mpr ⟨hbegun, hip⟩, t, ht, rfl⟩
  have ⟨_, hwindow, _⟩ := hc
  have hcopy := loadFrom_eq hc ws 0 hwindow
  have hread := read_copyFrom_zero h.machine ws
  have hother := read_copyFrom_zero_other h.machine ws
  by_cases hfit : ws.length ≤ h.machine.cfg.dataBase - h.machine.cfg.stackLimit
  · refine ⟨h.machine.copyFrom 0 ws, hload _ ?_, rfl, hread, hother, fun _ => hrun,
      fun hlong => absurd hfit (Nat.not_le.mpr hlong)⟩
    rw [hcopy, if_pos (by omega), finish_ok]
  · refine ⟨(h.machine.copyFrom 0 ws).raise (.outOfBounds .instruction h.machine.cfg.dataBase), hload _ ?_, rfl, hread,
      hother, fun hfit' => absurd hfit' hfit, fun _ => ?_⟩
    · rw [hcopy, if_neg (by omega), finish_fatal]
    · rw [raise_of_running (s := h.machine.copyFrom 0 ws) hrun]
      exact ⟨rfl, rfl⟩

end Sys2Proof.Machine

/-!
PROOF. The codec as a whole (30_encoding.md sections 3 and 4): what the decoder makes of each tag, and with it the round
trip in both directions and the words it rejects.
-/

namespace Sys2Proof

/-! ### The shapes of instructions and of words -/

/-- An instruction is a literal, a reserved word, or the instruction of a mnemonic. -/
theorem Instr.op_cases {motive : Instr → Prop} (lit : ∀ p, motive (.lit p)) (nlit : ∀ p, motive (.nlit p))
    (rsvd3 : ∀ id, motive (.rsvd3 id)) (op : ∀ m : Op, motive m.instr) (i : Instr) : motive i := by
  cases i with
  | lit p => exact lit p
  | nlit p => exact nlit p
  | rsvd3 id => exact rsvd3 id
  | halt => exact op .halt
  | add => exact op .add
  | sub => exact op .sub
  | mul => exact op .mul
  | div => exact op .div
  | dup => exact op .dup
  | jmp => exact op .jmp
  | jz => exact op .jz
  | prn => exact op .prn
  | prnchar => exact op .prnchar
  | load => exact op .load
  | stor => exact op .stor

/-- Two mnemonics with one instruction are the same: their words under the default numbering have one payload. -/
theorem Op.eq_of_instr_eq {m n : Op} (h : m.instr = n.instr) : m = n := by
  have hword := congrArg (fun i => payload (encode OpIds.tableOrder i)) h
  simp only [encode_instr, payload_packWord] at hword
  exact OpIds.eq_of_id_eq default_numbering_injective hword

/-- Every word is a payload under one of the four tags (R91). -/
theorem packWord_cases {motive : Word → Prop} (lit : ∀ p, motive (packWord 0 p)) (op : ∀ p, motive (packWord 1 p))
    (nlit : ∀ p, motive (packWord 2 p)) (rsvd3 : ∀ p, motive (packWord 3 p)) (w : Word) : motive w := by
  rw [← packWord_classify_payload w]
  rcases tag_cases (classify w) with h | h | h | h
  · rw [h]; exact lit _
  · rw [h]; exact op _
  · rw [h]; exact nlit _
  · rw [h]; exact rsvd3 _

/-! ### The decoder by tag -/

/-- R98: a word of tag 1 is looked up in the opcode map. -/
theorem decode_packWord_one (ids : OpIds) (p : Payload) : decode ids (packWord 1 p) = decodePrimitive ids p := by
  simp [decode]

/-- R101: tag 3 is a reserved word under every numbering. -/
theorem decode_packWord_three (ids : OpIds) (p : Payload) :
    decode ids (packWord 3 p) = .instr (.rsvd3 p) := by
  simp [decode]

/-- R98: the lookup finds an instruction exactly where a mnemonic has the id. -/
theorem decodePrimitive_eq_instr {ids : OpIds} {id : Payload} {i : Instr} :
    decodePrimitive ids id = .instr i ↔ ∃ m, lookupOp ids id = some m ∧ m.instr = i := by
  unfold decodePrimitive
  cases lookupOp ids id <;> simp

/-- R100: and otherwise it rejects the id by name. -/
theorem decodePrimitive_eq_unknownOpcode {ids : OpIds} {p id : Payload} :
    decodePrimitive ids p = .unknownOpcode id ↔ p = id ∧ lookupOp ids p = none := by
  unfold decodePrimitive
  cases lookupOp ids p <;> simp

/-! ### The round trip -/

/-- Settles O3: the tag of an instruction's word tells its form, and for a primitive the lookup finds its id again. -/
theorem decodeOfEncode : Obligations.DecodeOfEncode := by
  intro ids hinj i
  cases i using Instr.op_cases with
  | lit p => exact decode_packWord_zero ids p
  | nlit p => exact decode_packWord_two ids p
  | rsvd3 id => exact decode_packWord_three ids id
  | op m => rw [encode_instr, decode_packWord_one_id hinj]

/-- Settles O4: no tag loses its payload, and the mnemonic that the lookup finds has the id looked for. -/
theorem encodeOfDecode : Obligations.EncodeOfDecode := by
  intro ids w i h
  cases w using packWord_cases with
  | lit p => rw [decode_packWord_zero] at h; cases h; rfl
  | nlit p => rw [decode_packWord_two] at h; cases h; rfl
  | rsvd3 p => rw [decode_packWord_three] at h; cases h; rfl
  | op p =>
    rw [decode_packWord_one, decodePrimitive_eq_instr] at h
    obtain ⟨m, hm, rfl⟩ := h
    rw [encode_instr, id_of_lookupOp hm]

/-- Settles O5: only a word of tag 1 can be rejected, and it is where the lookup fails. -/
theorem decoderRejectsOnlyUnknownIds : Obligations.DecoderRejectsOnlyUnknownIds := by
  intro ids w id
  cases w using packWord_cases with
  | lit p => rw [decode_packWord_zero, classify_packWord]; simp
  | nlit p => rw [decode_packWord_two, classify_packWord]; simp
  | rsvd3 p => rw [decode_packWord_three, classify_packWord]; simp
  | op p =>
    rw [decode_packWord_one, decodePrimitive_eq_unknownOpcode, lookupOp_eq_none, classify_packWord, payload_packWord]
    constructor
    · rintro ⟨rfl, hno⟩
      exact ⟨rfl, rfl, hno⟩
    · rintro ⟨_, rfl, hno⟩
      exact ⟨rfl, hno⟩

/-- Settles O6: eight closed words, decided by evaluation. -/
theorem writtenOutWordsDecode : Obligations.WrittenOutWordsDecode := by
  refine ⟨?_, ?_, ?_, ?_, ?_, ?_, ?_, ?_⟩ <;> decide

end Sys2Proof

/-!
PROOF. What an execute phase changes and what it leaves, over every state (10_state.md R32, R34): one lemma a part of the
state, each by the shapes of `Effect`, and with them the frames.
-/

namespace Sys2Proof.Machine

/-! ### Every instruction has an effect -/

/-- `j` is the instruction that runs when `i` is executed: `i` itself, or the primitive a reserved word names (R161). -/
def RunsAs (ids : OpIds) (i j : Instr) : Prop :=
  j = i ∨ ∃ id m, i = .rsvd3 id ∧ lookupOp ids id = some m ∧ j = m.instr

/-- What runs a primitive is its own instruction, or a reserved word that names it. -/
theorem RunsAs.of_instr {ids : OpIds} {i : Instr} {m : Op} (h : RunsAs ids i m.instr) :
    i = m.instr ∨ ∃ id, i = .rsvd3 id ∧ lookupOp ids id = some m := by
  rcases h with h | ⟨id, n, hi, hn, hm⟩
  · exact .inl h.symm
  · exact .inr ⟨id, hi, Op.eq_of_instr_eq hm ▸ hn⟩

/-- `exec_effect` with the reserved words: they have the effect of what they run as, or raise `UnknownOpcode`. -/
theorem exec_effect_runsAs {i : Instr} {s t : State} (h : exec i s = .next t) :
    ∃ j, RunsAs s.cfg.opid i j ∧ Effect s j t := by
  by_cases hi : ∃ id, i = .rsvd3 id
  · obtain ⟨id, rfl⟩ := hi
    rcases exec_rsvd3_cases id s with ⟨m, hm, he⟩ | ⟨_, he⟩
    · exact ⟨m.instr, .inr ⟨id, m, rfl, hm, rfl⟩, exec_effect (instr_ne_rsvd3 m) (he ▸ h)⟩
    · cases he.symm.trans h
      exact ⟨.rsvd3 id, .inl rfl, .raised _ _ s.sp (le_refl _)⟩
  · exact ⟨i, .inl rfl, exec_effect (fun id e => hi ⟨id, e⟩) h⟩

/-! ### The parts of the state -/

section

variable {s t : State} {i : Instr}

/-- R32, R34: the constants and the two decode registers are in no effect. -/
theorem Effect.constants (h : Effect s i t) : t.cfg = s.cfg ∧ t.tr = s.tr ∧ t.dr = s.dr := by
  cases h <;> exact ⟨rfl, rfl, rfl⟩

/-- R25, R27: `RUN` and `FAULT` are as before, or a HALT ran, or an error was raised. -/
theorem Effect.status (h : Effect s i t) :
    (t.run = s.run ∧ t.fault = s.fault) ∨ (t.run = false ∧ t.fault = s.fault ∧ i = .halt) ∨
      (t.run = false ∧ ∃ e, t.fault = s.fault.or (some e)) := by
  cases h with
  | halted => exact .inr (.inl ⟨rfl, rfl, rfl⟩)
  | raised _ e => exact .inr (.inr ⟨rfl, e, rfl⟩)
  | pushed | combined | jumped | fellThrough | emitted | loaded | stored => exact .inl ⟨rfl, rfl⟩

/-- Only the jumps move `IP`, and only into the Instructions window. -/
theorem Effect.ip_cases (h : Effect s i t) :
    t.ip = s.ip ∨ ((i = .jmp ∨ i = .jz) ∧
      ∃ a, s.cfg.stackLimit ≤ a ∧ a < s.cfg.dataBase ∧ t.ip = BitVec.ofNat 32 a) := by
  cases h with
  | jumped _ _ a which _ low high => exact .inr ⟨which, a, low, high, rfl⟩
  | halted | raised | pushed | combined | fellThrough | emitted | loaded | stored => exact .inl rfl

/-- Only the output instructions change `OUT`, by one event at its end (R28). -/
theorem Effect.out_cases (h : Effect s i t) :
    t.out = s.out ∨ ((i = .prn ∨ i = .prnchar) ∧ ∃ e, t.out = s.out ++ [e]) := by
  cases h with
  | emitted _ e which => exact .inr ⟨which, e, rfl⟩
  | halted | raised | pushed | combined | jumped | fellThrough | loaded | stored => exact .inl rfl

/-- The address an instruction stores its one word at, if it stores one. -/
def storeSlot (s : State) : Instr → Option Nat
  | .lit _ | .nlit _ | .dup => some (s.sp.toNat + 1)
  | .add | .sub | .mul | .div => some (s.sp.toNat - 1)
  | .load => some s.sp.toNat
  | .stor => some (dataAddress s.cfg s.top)
  | .halt | .jmp | .jz | .prn | .prnchar | .rsvd3 _ => none

/-- At most one word is stored, at the instruction's slot: in the Stack window, or, by STOR alone, at a data address. -/
theorem Effect.mem_cases (h : Effect s i t) :
    t.mem = s.mem ∨ ∃ a v, t.mem = s.mem.write a v ∧ storeSlot s i = some a ∧
      (a < s.cfg.stackLimit ∨ (s.cfg.dataBase ≤ a ∧ i = .stor)) := by
  cases h with
  | halted | raised | jumped | fellThrough | emitted => exact .inl rfl
  | pushed _ v which room =>
    refine .inr ⟨_, v, rfl, ?_, .inl room⟩
    rcases which with ⟨p, rfl | rfl⟩ | rfl <;> rfl
  | combined _ v which _ range =>
    refine .inr ⟨_, v, rfl, ?_, .inl (Nat.lt_of_le_of_lt (Nat.sub_le _ _) range)⟩
    rcases which with rfl | rfl | rfl | rfl <;> rfl
  | loaded v _ range => exact .inr ⟨_, v, rfl, rfl, .inl range⟩
  | stored n v _ inside => exact .inr ⟨_, v, rfl, rfl, .inr ⟨((checkBounds_programData _ _).mp inside).1, rfl⟩⟩

/-- So a word that reads differently is the one at the slot. -/
theorem Effect.read_eq (h : Effect s i t) {a : Nat} (ha : storeSlot s i ≠ some a) : t.mem.read a = s.mem.read a := by
  rcases h.mem_cases with hm | ⟨b, v, hm, hb, _⟩
  · rw [hm]
  · rw [hm, Memory.read_write_other]
    rintro rfl
    exact ha hb

/-- R125: HALT clears `RUN`, whatever the state. -/
theorem exec_halt (s : State) : exec .halt s = .next { s with run := false } := rfl

/-- The frame of an instruction that neither jumps nor emits: the words outside its slot, `IP` and `OUT`. -/
theorem exec_frame {a : Nat} (h : exec i s = .next t) (hi : ∀ id, i ≠ .rsvd3 id) (hslot : storeSlot s i = some a)
    (hjump : ¬(i = .jmp ∨ i = .jz)) (hemit : ¬(i = .prn ∨ i = .prnchar)) :
    (∀ b, b ≠ a → t.mem.read b = s.mem.read b) ∧ t.ip = s.ip ∧ t.out = s.out := by
  have he := exec_effect hi h
  refine ⟨fun b hb => he.read_eq ?_, he.ip_cases.resolve_right (fun hj => hjump hj.1),
    he.out_cases.resolve_right (fun ho => hemit ho.1)⟩
  rw [hslot]
  exact fun e => hb (Option.some.inj e).symm

end

/-! ### The frames -/

/-- Settles O29: no effect has the constants, `TR` or `DR` in it. -/
theorem executeKeepsConstantsAndDecodeRegisters : Obligations.ExecuteKeepsConstantsAndDecodeRegisters := by
  intro i s t h
  obtain ⟨j, _, he⟩ := exec_effect_runsAs h
  exact he.constants

/-- Settles O30: the status of the effect; what runs as HALT is HALT or a reserved word that names it. -/
theorem statusFrame : Obligations.StatusFrame := by
  intro i s t h
  obtain ⟨j, hj, he⟩ := exec_effect_runsAs h
  rcases he.status with hsame | ⟨hrun, hfault, rfl⟩ | hraised
  · exact .inl hsame
  · exact .inr (.inl ⟨hrun, hfault, RunsAs.of_instr (m := .halt) hj⟩)
  · exact .inr (.inr hraised)

/-- Settles O31: these five have no slot, and each other part changes for the instructions that `Effect` allows. -/
theorem nonStoringFrame : Obligations.NonStoringFrame := by
  intro i hi s t h
  have hslot : storeSlot s i = none ∧ ∀ id, i ≠ .rsvd3 id := by
    fin_cases hi <;> exact ⟨rfl, fun _ => Instr.noConfusion⟩
  have he := exec_effect hslot.2 h
  refine ⟨fun a => he.read_eq (by simp [hslot.1]), fun hjmp hjz => ?_, fun hprn hprnchar => ?_, ?_⟩
  · exact he.ip_cases.resolve_right fun hj => hj.1.elim hjmp hjz
  · exact he.out_cases.resolve_right fun ho => ho.1.elim hprn hprnchar
  · rintro rfl
    cases (exec_halt s).symm.trans h
    rfl

/-- Settles O32: the slot of the three is `SP + 1`. -/
theorem pushingFrame : Obligations.PushingFrame := by
  intro i imm hi s t h
  rcases hi with rfl | rfl | rfl <;> exact exec_frame h (by simp) rfl (by simp) (by simp)

/-- Settles O33: the slot of the four is `SP - 1`. -/
theorem arithmeticFrame : Obligations.ArithmeticFrame := by
  intro i hi s t h
  fin_cases hi <;> exact exec_frame h (by simp) rfl (by simp) (by simp)

/-- Settles O34: the slot of LOAD is `SP`. -/
theorem loadFrame : Obligations.LoadFrame := fun _ _ h => exec_frame h (by simp) rfl (by simp) (by simp)

/-- Settles O35: the slot of STOR is the biased address of the top word. -/
theorem storFrame : Obligations.StorFrame := fun _ _ h => exec_frame h (by simp) rfl (by simp) (by simp)

end Sys2Proof.Machine

/-!
PROOF. The cycle (30_encoding.md R103, R104): what a step can do in any state, said once, and with it the rules of the
whole machine (R28, R53, R63) and the laws of the fetch and of the decode registers.
-/

namespace Sys2Proof.Machine

/-! ### Fetch, decode, execute -/

/-- The word the next fetch reads. -/
abbrev State.nextWord (s : State) : Word := s.mem.read (s.ip.toNat + 1)

/-- The state in which the execute phase of the next word starts: `IP` at it, `TR` and `DR` its fields (R103). -/
def State.fetched (s : State) : State := (s.setIp (BitVec.ofNat 32 (s.ip.toNat + 1))).latch s.nextWord

@[simp] theorem fetched_cfg (s : State) : s.fetched.cfg = s.cfg := rfl
@[simp] theorem fetched_mem (s : State) : s.fetched.mem = s.mem := rfl

/-- The execute phase on a word that decodes is the instruction's (R98). -/
theorem execWord_of_instr {w : Word} {s : State} {i : Instr} (h : decode s.cfg.opid w = .instr i) :
    execWord w s = exec i s := by
  simp only [execWord, h]

/-- R104: a step of a state that is not Running is no cycle. -/
theorem step_of_not_running {s : State} (h : ¬s.Running) : step s = .next s := by
  rw [step, cycleIfRunning, if_neg (mt (isRunning_iff s).mp h)]

/-- R103: a step of a Running state is a cycle. -/
theorem step_of_running {s : State} (h : s.Running) : step s = cycle s := by
  rw [step, cycleIfRunning, if_pos ((isRunning_iff s).mpr h)]

/-- R55, R62: a fetch outside the Instructions window is refused before anything else happens, whatever the sizes. -/
theorem fetch_of_outside {s : State}
    (h : ¬(s.cfg.stackLimit ≤ s.ip.toNat + 1 ∧ s.ip.toNat + 1 < s.cfg.dataBase)) :
    fetch s = .fatal (s.raise (.outOfBounds .instruction (s.ip.toNat + 1))) := by
  rw [fetch, check_eq, if_neg (mt (checkBounds_instruction _ _).mp h), andThen_fatal]

/-- What a step that answers can do, in any state: nothing, in a terminal state; a failed fetch; an unknown id; or the
effect of what the next word runs as. -/
theorem step_next_cases {s t : State} (h : step s = .next t) :
    t = s ∨ (∃ e, t = s.raise e) ∨ (∃ e, t = s.fetched.raise e) ∨
      ∃ i j, decode s.cfg.opid s.nextWord = .instr i ∧ RunsAs s.cfg.opid i j ∧ Effect s.fetched j t := by
  by_cases hrun : s.Running
  · rw [step_of_running hrun, cycle] at h
    by_cases hin : s.cfg.stackLimit ≤ s.ip.toNat + 1 ∧ s.ip.toNat + 1 < s.cfg.dataBase
    · rw [fetch, check_eq, if_pos ((checkBounds_instruction _ _).mpr hin), andThen_ok] at h
      rcases memRead_cases (s.ip.toNat + 1) (s.setIp (BitVec.ofNat 32 (s.ip.toNat + 1))) with e | e <;> rw [e] at h
      · cases h
      · have hword : execWord s.nextWord s.fetched = .next t := h
        rcases execWord_cases hword with ⟨i, hd, hi⟩ | ⟨id, _, ht⟩
        · obtain ⟨j, hj, he⟩ := exec_effect_runsAs hi
          exact .inr (.inr (.inr ⟨i, j, hd, hj, he⟩))
        · exact .inr (.inr (.inl ⟨_, ht⟩))
    · rw [fetch_of_outside hin] at h
      cases h
      exact .inr (.inl ⟨_, rfl⟩)
  · cases (step_of_not_running hrun).symm.trans h
    exact .inl rfl

/-- Settles O7: the fetch succeeds, and the word there is the instruction's. -/
theorem stepRunsDecodedInstruction : Obligations.StepRunsDecodedInstruction := by
  intro s i hc hrun hlow hhigh hd
  rw [step_of_fetch hc hrun hlow hhigh]
  exact execWord_of_instr hd

/-- Settles O9: the refused fetch is the whole cycle. -/
theorem fetchFaultChangesNothingElse : Obligations.FetchFaultChangesNothingElse := by
  intro s hrun hout
  rw [step_of_running hrun, cycle, fetch_of_outside hout, ← raise_of_running hrun]

/-- Settles O10: neither kind of terminal state is Running. -/
theorem terminalStatesStay : Obligations.TerminalStatesStay := by
  rintro s (⟨hrun, _⟩ | hfault)
  · exact step_of_not_running fun h => Bool.noConfusion (hrun.symm.trans h.1)
  · exact step_of_not_running fun h => hfault h.2

/-- The same with the number in `IP` given. -/
theorem step_of_ip {s : State} {i : Instr} {a : Nat} (hc : s.cfg.WellFormed) (hrun : s.Running)
    (hip : s.ip.toNat = a) (hlow : s.cfg.stackLimit ≤ a + 1) (hhigh : a + 1 < s.cfg.dataBase)
    (hd : decode s.cfg.opid (s.mem.read (a + 1)) = .instr i) :
    step s = exec i { s with
      ip := BitVec.ofNat 32 (a + 1), tr := classify (s.mem.read (a + 1)), dr := payload (s.mem.read (a + 1)) } := by
  subst hip
  exact stepRunsDecodedInstruction s i hc hrun hlow hhigh hd

/-- Settles O11: JMP leaves `IP` at the target, so the fetch reads the word after it; memory and the numbering are as
before the jump. -/
theorem jumpResumesOnePastTarget : Obligations.JumpResumesOnePastTarget := by
  intro s i hs hpos hin hd
  have ⟨hc, hrun, _⟩ := hs
  have ⟨_, _, hdata, hmem, _⟩ := hc
  have ⟨_, hjump, _⟩ := jmpSetsBiasedTarget s hs
  have hip := toNat_ofNat_of_lt (n := s.top.toNat + s.cfg.stackLimit) (by omega)
  refine ⟨_, hjump hpos (Nat.lt_of_succ_lt hin), step_of_ip ?_ ?_ hip (Nat.le_succ_of_le (Nat.le_add_left _ _)) hin hd⟩
  · exact hc
  · exact hrun

/-- Settles O14: HALT is the write of `RUN`, and leaves a terminal state. -/
theorem haltEndsTheRun : Obligations.HaltEndsTheRun := by
  refine ⟨fun s hc => ?_, exec_halt, fun s hrun => ⟨_, exec_halt s, ⟨rfl, hrun.2⟩, ?_⟩⟩
  · obtain ⟨_, _, _, _, hinj⟩ := hc
    exact ⟨encode_instr _ .halt, decode_packWord_one_id hinj .halt⟩
  · exact terminalStatesStay _ (.inl ⟨rfl, hrun.2⟩)

/-! ### Memory -/

/-- A word that a step changed is in the Stack window, or a data word, and then the step ran as STOR. -/
theorem step_changed_word {s t : State} (h : step s = .next t) {a : Nat} (ha : t.mem.read a ≠ s.mem.read a) :
    a < s.cfg.stackLimit ∨
      (s.cfg.dataBase ≤ a ∧ ∃ i, decode s.cfg.opid s.nextWord = .instr i ∧ RunsAs s.cfg.opid i .stor) := by
  rcases step_next_cases h with rfl | ⟨e, rfl⟩ | ⟨e, rfl⟩ | ⟨i, j, hd, hj, he⟩
  · exact absurd rfl ha
  · exact absurd rfl ha
  · exact absurd rfl ha
  · rcases he.mem_cases with hm | ⟨b, v, hm, _, hb⟩
    · exact absurd (by rw [hm, fetched_mem]) ha
    · by_cases hab : a = b
      · subst hab
        refine hb.imp_right ?_
        rintro ⟨hlow, rfl⟩
        exact ⟨hlow, i, hd, hj⟩
      · exact absurd (by rw [hm, Memory.read_write_other _ _ hab, fetched_mem]) ha

/-- Settles O43: the words a step can change lie on either side of the window. -/
theorem instructionsAreReadOnly : Obligations.InstructionsAreReadOnly := by
  intro s t _ h a hlow hhigh
  by_contra ha
  rcases step_changed_word h ha with hstack | ⟨hdata, _⟩
  · exact absurd hlow (Nat.not_le.mpr hstack)
  · exact absurd hhigh (Nat.not_lt.mpr hdata)

/-- Settles O44: a data word is not below `STACK_LIMIT`, so the step ran as STOR. -/
theorem onlyStorChangesData : Obligations.OnlyStorChangesData := by
  rintro s t a ⟨_, hwindow, _⟩ h hdata ha
  rcases step_changed_word h ha with hstack | ⟨_, i, hd, hi⟩
  · omega
  · rw [show decode s.cfg.opid (s.mem.read (s.ip.toNat + 1)) = .instr i from hd]
    rcases RunsAs.of_instr (m := .stor) hi with rfl | ⟨id, rfl, hid⟩
    · exact .inl rfl
    · exact .inr ⟨id, rfl, hid⟩

/-! ### Output and status -/

/-- Settles O45: an effect appends at most one event, and nothing else in a step touches `OUT`. -/
theorem outputOnlyGrows : Obligations.OutputOnlyGrows := by
  intro s t h
  have hsame (ht : t.out = s.out) : ∃ es, t.out = s.out ++ es ∧ es.length ≤ 1 :=
    ⟨[], by rw [ht, List.append_nil], Nat.zero_le _⟩
  rcases step_next_cases h with rfl | ⟨e, rfl⟩ | ⟨e, rfl⟩ | ⟨i, j, _, _, he⟩
  · exact hsame rfl
  · exact hsame rfl
  · exact hsame rfl
  · rcases he.out_cases with ho | ⟨_, e, ho⟩
    · exact hsame ho
    · exact ⟨[e], ho, le_refl _⟩

/-- How `RUN` and `FAULT` can move: not at all, to a clear `RUN`, or by the fatal entry (R25, R27, R175). -/
def StatusMoves (s t : State) : Prop :=
  (t.run = s.run ∧ t.fault = s.fault) ∨ (t.run = false ∧ t.fault = s.fault) ∨
    (t.run = false ∧ ∃ e, t.fault = s.fault.or (some e))

theorem statusMoves_raise (s : State) (e : FatalError) : StatusMoves s (s.raise e) := .inr (.inr ⟨rfl, e, rfl⟩)

theorem Effect.statusMoves {s t : State} {i : Instr} (h : Effect s i t) : StatusMoves s t :=
  h.status.imp_right (Or.imp_left fun ⟨hrun, hfault, _⟩ => ⟨hrun, hfault⟩)

theorem step_statusMoves {s t : State} (h : step s = .next t) : StatusMoves s t := by
  rcases step_next_cases h with rfl | ⟨e, rfl⟩ | ⟨e, rfl⟩ | ⟨i, j, _, _, he⟩
  · exact .inl ⟨rfl, rfl⟩
  · exact statusMoves_raise s e
  · exact statusMoves_raise s.fetched e
  · exact he.statusMoves

/-- Each such move keeps a `FAULT` that holds an error, keeps a clear `RUN`, and records an error with `RUN` clear. -/
theorem StatusMoves.write_once {s t : State} (h : StatusMoves s t) :
    (s.fault ≠ none → t.fault = s.fault) ∧ (s.run = false → t.run = false) ∧
      (t.fault ≠ s.fault → t.run = false) := by
  rcases h with ⟨hrun, hfault⟩ | ⟨hrun, hfault⟩ | ⟨hrun, e, hfault⟩
  · exact ⟨fun _ => hfault, hrun.trans, fun hne => absurd hfault hne⟩
  · exact ⟨fun _ => hfault, fun _ => hrun, fun _ => hrun⟩
  · refine ⟨fun hne => ?_, fun _ => hrun, fun _ => hrun⟩
    obtain ⟨e', he'⟩ := Option.ne_none_iff_exists'.mp hne
    rw [hfault, he', Option.some_or]

/-- Settles O46: both an execute phase and a step move the status as `StatusMoves` says. -/
theorem faultIsWrittenOnce : Obligations.FaultIsWrittenOnce := by
  refine ⟨fun i s t h => ?_, fun s t h => (step_statusMoves h).write_once⟩
  obtain ⟨j, _, he⟩ := exec_effect_runsAs h
  exact he.statusMoves.write_once

/-! ### What does not matter to a step -/

/-- Settles O50: the latch overwrites both registers before the execute phase reads the state. -/
theorem decodeRegistersAreScratch : Obligations.DecodeRegistersAreScratch := by
  intro s t d hc hrun hlow hhigh
  rw [step_of_fetch hc hrun hlow hhigh, step_of_fetch (s := { s with tr := t, dr := d }) hc hrun hlow hhigh]
  rfl

/-- Bit 31 is the upper bit of the tag. -/
theorem packWord_xor_top (t : Tag) (p : Payload) : packWord t p ^^^ 0x80000000 = packWord (t ^^^ 2) p := by
  have hbit : (0x80000000 : Word) = packWord 2 0#30 := by decide
  rw [hbit, packWord, packWord, BitVec.xor_append, BitVec.xor_zero]
  rfl

/-- R98, R161: a word of tag 1 runs as the reserved word of the same payload does. -/
theorem execWord_tag_one_eq_three (p : Payload) (s : State) :
    execWord (packWord 1 p) s = execWord (packWord 3 p) s := by
  rw [execWord_of_instr (decode_packWord_three _ p), execWord, decode_packWord_one, decodePrimitive]
  rcases exec_rsvd3_cases p s with ⟨m, hm, he⟩ | ⟨hnone, he⟩
  · rw [hm, he]
  · rw [hnone, he]
    rfl

/-- R97: the two literals of one payload run alike. -/
theorem execWord_tag_zero_eq_two (p : Payload) (s : State) :
    execWord (packWord 0 p) s = execWord (packWord 2 p) s := by
  rw [execWord_of_instr (decode_packWord_zero _ p), execWord_of_instr (decode_packWord_two _ p), exec_nlit_eq_exec_lit]

/-- Settles O51: bit 31 pairs the tags 0 and 2, and 1 and 3. -/
theorem topBitDoesNotAffectExecution : Obligations.TopBitDoesNotAffectExecution := by
  intro w s
  cases w using packWord_cases with
  | lit p => rw [packWord_xor_top]; exact (execWord_tag_zero_eq_two p s).symm
  | op p => rw [packWord_xor_top]; exact (execWord_tag_one_eq_three p s).symm
  | nlit p => rw [packWord_xor_top]; exact execWord_tag_zero_eq_two p s
  | rsvd3 p => rw [packWord_xor_top]; exact execWord_tag_one_eq_three p s

end Sys2Proof.Machine

/-!
PROOF. MUL and DIV (42_arithmetic.md), DUP (43_stack_dup.md), the output instructions with the decimal text
(45_output.md), the reserved words (47_unknown_and_reserved.md), and the stack accessors in a Running state
(20_memory.md R58, R59).
-/

namespace Sys2Proof.Machine

/-! ### MUL and DIV -/

/-- R134: the ALU's product is the exact one reduced modulo `2^32`. -/
theorem aluMul_eq (a b : Word) : aluMul a b = BitVec.ofNat 32 ((a.toNat * b.toNat) % 2 ^ 32) := by
  apply BitVec.eq_of_toNat_eq
  rw [aluMul, BitVec.toNat_ofNat, BitVec.toNat_ofNat, Nat.mod_mod]

theorem exec_mul (s : State) : exec .mul s = (binary aluMul s).finish := rfl

/-- Settles O17: MUL is the binary operation of the product modulo `2^32`. -/
theorem mulReplacesTwoByLowProduct : Obligations.MulReplacesTwoByLowProduct := by
  intro s hs
  rw [exec_mul, ← aluMul_eq]
  exact ⟨hasWord_instr hs .mul, binary_finish_of_two hs aluMul, binary_finish_of_fewer hs aluMul⟩

theorem exec_div (s : State) :
    exec .div s = ((popPair s).andThen fun ab s =>
      if isZero ab.2 then .fatal (s.raise .divisionByZero) else push (aluDiv ab.1 ab.2) s).finish := rfl

/-- Settles O18: DIV is the operand pair, the zero test, and a push as for the other three. -/
theorem divReplacesTwoByQuotient : Obligations.DivReplacesTwoByQuotient := by
  intro s hs
  have ⟨_, hrun, _⟩ := hs
  refine ⟨hasWord_instr hs .div, fun htwo hne => ?_, fun htwo hzero => ?_, fun hfew => ?_⟩
  · rw [exec_div, popPair_of_two hs htwo, andThen_ok, if_neg (mt (isZero_iff _).mp hne),
      push_after_popPair hs _ htwo]
    rfl
  · have hrun' : (s.setSp (BitVec.ofNat 32 (s.sp.toNat - 2))).Running := hrun
    rw [exec_div, popPair_of_two hs htwo, andThen_ok, if_pos ((isZero_iff _).mpr hzero), raise_of_running hrun']
    rfl
  · rw [exec_div, popPair_of_fewer hs hfew, andThen_fatal, finish_fatal]

/-! ### The stack accessors and DUP -/

/-- Settles O55: `pop_eq` and `peek_eq` on either side of their one check. -/
theorem popAndPeekCheckFirst : Obligations.PopAndPeekCheckFirst := by
  intro s hc hrun
  rw [pop_eq hc, peek_eq hc, raise_of_running hrun]
  constructor
  · intro hpos hlt
    rw [if_pos ⟨hpos, hlt⟩, if_pos ⟨hpos, hlt⟩]
    exact ⟨rfl, rfl⟩
  · intro hout
    have hno : ¬(0 < s.sp.toNat ∧ s.sp.toNat < s.cfg.stackLimit) := by omega
    rw [if_neg hno, if_neg hno]
    exact ⟨rfl, rfl⟩

theorem exec_dup (s : State) : exec .dup s = ((peek s).andThen fun v s => push v s).finish := rfl

/-- Settles O19: DUP is the peek, and then a push of the top word. -/
theorem dupPushesTopAgain : Obligations.DupPushesTopAgain := by
  intro s hs
  have ⟨hc, hrun, hlt⟩ := hs
  have ⟨hlive, hempty⟩ := popAndPeekCheckFirst s hc hrun
  refine ⟨hasWord_instr hs .dup, fun hpos hroom => ?_, fun hzero => ?_, fun hpos hfull => ?_⟩
  · rw [exec_dup, (hlive hpos hlt).2, andThen_ok, push_finish_of_room hs _ hroom]
  · rw [exec_dup, (hempty (.inl hzero)).2, andThen_fatal, finish_fatal, hzero]
  · rw [exec_dup, (hlive hpos hlt).2, andThen_ok, push_finish_of_full hs _ hfull]

/-! ### PRN and PRNCHAR -/

/-- What PRN and PRNCHAR share: pop a word and emit an event made of it (R150). -/
def emitTop (f : Word → OutEvent) (s : State) : Res Unit :=
  (pop s).andThen fun v s => .ok () (s.emit (f v))

theorem exec_prn (s : State) : exec .prn s = (emitTop (fun v => .text (decimal v)) s).finish := rfl

theorem exec_prnchar (s : State) : exec .prnchar s = (emitTop .char s).finish := rfl

/-- With a word on the stack, the event of the top word is emitted. -/
theorem emitTop_finish_of_nonempty {s : State} (h : s.InCycle) (f : Word → OutEvent) (hpos : 1 ≤ s.sp.toNat) :
    (emitTop f s).finish = .next { s with sp := s.sp - 1, out := s.out ++ [f s.top] } := by
  rw [emitTop, pop_of_nonempty h hpos]
  rfl

/-- With none, the pop raises and nothing is emitted. -/
theorem emitTop_finish_of_empty {s : State} (h : s.InCycle) (f : Word → OutEvent) (hzero : s.sp.toNat = 0) :
    (emitTop f s).finish = .next { s with fault := some (.outOfBounds .stack 0), run := false } := by
  have hsp : s.sp = 0 := BitVec.eq_of_toNat_eq hzero
  rw [emitTop, pop_of_empty h hsp, andThen_fatal, finish_fatal, hsp]

/-- Settles O22: PRN emits the text of the top word. -/
theorem prnEmitsDecimalText : Obligations.PrnEmitsDecimalText := by
  intro s hs
  rw [exec_prn]
  exact ⟨hasWord_instr hs .prn, emitTop_finish_of_nonempty hs _, emitTop_finish_of_empty hs _⟩

/-- Settles O24: PRNCHAR emits the top word as it is. -/
theorem prncharEmitsCodePoint : Obligations.PrncharEmitsCodePoint := by
  intro s hs
  rw [exec_prnchar]
  exact ⟨hasWord_instr hs .prnchar, emitTop_finish_of_nonempty hs _, emitTop_finish_of_empty hs _⟩

/-! ### The decimal text -/

/-- The number a list of digits is in base ten, `n` being the number of the digits read before it. -/
def readDecimal (n : Nat) (ds : List Digit) : Nat :=
  ds.foldl (fun n d => 10 * n + d.val) n

/-- With fuel for all its digits, the loop puts before `acc` a numeral of `n`: reading it takes 0 to `n`. -/
theorem readDecimal_digitsBefore (fuel n : Nat) (acc : List Digit) (h : n < 10 ^ fuel) :
    readDecimal 0 (digitsBefore fuel n acc) = readDecimal n acc := by
  induction fuel generalizing n acc with
  | zero => rw [show n = 0 by simpa using h]; rfl
  | succ fuel ih =>
    have hdigit (k : Nat) : readDecimal k (Fin.ofNat 10 n :: acc) = readDecimal (10 * k + n % 10) acc := rfl
    rw [digitsBefore]
    split_ifs with hsmall
    · rw [hdigit, Nat.mod_eq_of_lt hsmall, Nat.mul_zero, Nat.zero_add]
    · rw [ih _ _ (Nat.div_lt_of_lt_mul (by rwa [Nat.pow_succ'] at h)), hdigit, Nat.div_add_mod]

/-- The first digit of a number that is not 0 is not 0: the loop stops at a quotient below ten, which is no 0. -/
theorem head_digitsBefore (fuel n : Nat) (acc : List Digit) (hpos : n ≠ 0) (h : n < 10 ^ fuel) :
    ∃ d ds, digitsBefore fuel n acc = d :: ds ∧ d ≠ 0 := by
  induction fuel generalizing n acc with
  | zero => exact absurd (by simpa using h) hpos
  | succ fuel ih =>
    rw [digitsBefore]
    split_ifs with hsmall
    · refine ⟨_, _, rfl, fun hd => hpos ?_⟩
      simpa [Nat.mod_eq_of_lt hsmall] using congrArg Fin.val hd
    · exact ih _ _ (by omega) (Nat.div_lt_of_lt_mul (by rwa [Nat.pow_succ'] at h))

/-- Settles O23: ten digits hold every word; 0 has the one digit 0, and any other word starts with another digit. -/
theorem decimalTextIsTheNumeral : Obligations.DecimalTextIsTheNumeral := by
  intro v
  have hfuel : v.toNat < 10 ^ 10 := Nat.lt_trans v.isLt (by decide)
  refine ⟨readDecimal_digitsBefore 10 v.toNat [] hfuel, ?_⟩
  by_cases hzero : v = 0
  · subst hzero
    decide
  · have hpos : v.toNat ≠ 0 := fun h => hzero (BitVec.eq_of_toNat_eq h)
    obtain ⟨d, ds, hds, hd⟩ := head_digitsBefore 10 v.toNat [] hpos hfuel
    rw [decimal, hds]
    exact ⟨List.cons_ne_nil _ _, fun hhead => absurd (Option.some.inj hhead) hd⟩

/-! ### Reserved words -/

/-- R161: a reserved word with the id of a mnemonic runs as it. -/
theorem exec_rsvd3_id {s : State} (hinj : s.cfg.opid.Injective) (m : Op) :
    exec (.rsvd3 (s.cfg.opid.id m)) s = exec m.instr s := by
  rcases exec_rsvd3_cases (s.cfg.opid.id m) s with ⟨n, hn, he⟩ | ⟨hnone, _⟩
  · cases (lookupOp_id hinj m).symm.trans hn
    exact he
  · exact absurd rfl (lookupOp_eq_none.mp hnone m)

/-- Settles O27: the two outcomes of the lookup. -/
theorem reservedTagDispatchesPayload : Obligations.ReservedTagDispatchesPayload := by
  rintro s id ⟨_, _, _, _, hinj⟩
  refine ⟨⟨rfl, decode_packWord_three _ id⟩, ?_, fun hno hrun => ?_⟩
  · rintro m rfl
    exact exec_rsvd3_id hinj m
  · rw [← raise_of_running hrun]
    rcases exec_rsvd3_cases id s with ⟨m, hm, _⟩ | ⟨_, he⟩
    · exact absurd (id_of_lookupOp hm) (hno m)
    · exact he

end Sys2Proof.Machine

/-!
PROOF. That an execute phase always answers, and what it reports (60_exceptions.md R171, 70_reset_and_hazards.md R214):
for the primitives from their exact next states, then for the literals and the reserved words.
-/

namespace Sys2Proof.Machine

/-! ### The state an execute phase starts in -/

theorem State.InCycle.running {s : State} (h : s.InCycle) : s.Running := by
  obtain ⟨_, hrun, _⟩ := h
  exact hrun

theorem State.InCycle.fault_eq_none {s : State} (h : s.InCycle) : s.fault = none := h.running.2

/-- `SP` in its range (R37 a), as the upper bound of the slot above it. -/
theorem State.InCycle.succ_sp_le {s : State} (h : s.InCycle) : s.sp.toNat + 1 ≤ s.cfg.stackLimit := by
  obtain ⟨_, _, hlt⟩ := h
  exact hlt

/-! ### Reports -/

/-- The addresses a report for each window can carry (R171). -/
def reportRange (c : Config) : Region → Nat → Prop
  | .stack, a => a = 0 ∨ a = c.stackLimit
  | .instruction, a => c.dataBase ≤ a ∧ a ≤ 2 ^ 32 - 1 + c.stackLimit
  | .programData, a => c.memSize ≤ a ∧ a ≤ 2 ^ 32 - 1 + c.dataBase

/-- The errors a cycle can report in a configuration (R171). -/
def FatalError.Reportable (c : Config) : FatalError → Prop
  | .outOfBounds k a => reportRange c k a
  | .unknownOpcode _ => True
  | .divisionByZero => True

/-- In a configuration the spec allows, what a cycle can report is in the range of the record (R27). -/
theorem FatalError.Reportable.inRange {c : Config} (hc : c.WellFormed) {e : FatalError} (h : e.Reportable c) :
    e.InRange := by
  obtain ⟨_, h₂, h₃, h₄, _⟩ := hc
  cases e with
  | outOfBounds k a =>
    show a < 2 ^ 33
    cases k with
    | stack => rcases h with rfl | rfl <;> omega
    | instruction => obtain ⟨_, hle⟩ := h; omega
    | programData => obtain ⟨_, hle⟩ := h; omega
  | unknownOpcode id => trivial
  | divisionByZero => trivial

/-! ### Each primitive answers as its readiness says -/

/-- The primitive `m` answers: with no error where it is ready, with one a cycle can report where it is not. -/
def AnswersAsReady (s : State) (m : Op) : Prop :=
  ∃ t, exec m.instr s = .next t ∧
    ((s.Ready m ∧ t.fault = none) ∨ (¬s.Ready m ∧ ∃ e, t.fault = some e ∧ e.Reportable s.cfg))

section

variable {s t : State} {m : Op}

theorem answers_of_ready (h : exec m.instr s = .next t) (hready : s.Ready m) (hfault : t.fault = none) :
    AnswersAsReady s m :=
  ⟨t, h, .inl ⟨hready, hfault⟩⟩

theorem answers_of_not_ready {e : FatalError} (h : exec m.instr s = .next t) (hready : ¬s.Ready m)
    (hfault : t.fault = some e) (he : e.Reportable s.cfg) : AnswersAsReady s m :=
  ⟨t, h, .inr ⟨hready, e, hfault, he⟩⟩

/-- R136: ADD, SUB and MUL are ready with two words. -/
theorem answers_of_binary (hs : s.InCycle) (f : Word → Word → Word) (hm : exec m.instr s = (binary f s).finish)
    (hready : s.Ready m ↔ 2 ≤ s.sp.toNat) : AnswersAsReady s m := by
  rcases Nat.lt_or_ge 1 s.sp.toNat with htwo | hfew
  · exact answers_of_ready (hm.trans (binary_finish_of_two hs f htwo)) (hready.mpr htwo) hs.fault_eq_none
  · exact answers_of_not_ready (hm.trans (binary_finish_of_fewer hs f hfew))
      (mt hready.mp (Nat.not_le.mpr (Nat.lt_succ_of_le hfew))) rfl (.inl rfl)

/-- PRN and PRNCHAR are ready with one. -/
theorem answers_of_emitTop (hs : s.InCycle) (f : Word → OutEvent) (hm : exec m.instr s = (emitTop f s).finish)
    (hready : s.Ready m ↔ 1 ≤ s.sp.toNat) : AnswersAsReady s m := by
  rcases Nat.eq_zero_or_pos s.sp.toNat with hzero | hpos
  · exact answers_of_not_ready (hm.trans (emitTop_finish_of_empty hs f hzero)) (mt hready.mp (by omega)) rfl (.inl rfl)
  · exact answers_of_ready (hm.trans (emitTop_finish_of_nonempty hs f hpos)) (hready.mpr hpos) hs.fault_eq_none

/-- R135: DIV needs a divisor that is not 0 beside its two words. -/
theorem answers_div (hs : s.InCycle) : AnswersAsReady s .div := by
  obtain ⟨_, hdiv, hzero, hfew⟩ := divReplacesTwoByQuotient s hs
  rcases Nat.lt_or_ge 1 s.sp.toNat with htwo | hone
  · by_cases htop : s.top = 0
    · exact answers_of_not_ready (hzero htwo htop) (fun h => h.2 htop) rfl trivial
    · exact answers_of_ready (hdiv htwo htop) ⟨htwo, htop⟩ hs.fault_eq_none
  · exact answers_of_not_ready (hfew hone) (fun h => absurd h.1 (by omega)) rfl (.inl rfl)

/-- R140: DUP needs a word to copy and a free slot. -/
theorem answers_dup (hs : s.InCycle) : AnswersAsReady s .dup := by
  obtain ⟨_, hdup, hempty, hfull⟩ := dupPushesTopAgain s hs
  rcases Nat.eq_zero_or_pos s.sp.toNat with hzero | hpos
  · exact answers_of_not_ready (hempty hzero) (fun h => absurd h.1 (by omega)) rfl (.inl rfl)
  · rcases Nat.lt_or_eq_of_le hs.succ_sp_le with hroom | hlast
    · exact answers_of_ready (hdup hpos hroom) ⟨hpos, hroom⟩ hs.fault_eq_none
    · exact answers_of_not_ready (hfull hpos hlast) (fun h => absurd h.2 (by omega)) rfl (.inr rfl)

/-- R145: a biased target cannot lie below the Instructions window, so its check is one comparison. -/
theorem checkBounds_jumpTarget (c : Config) (a : Word) :
    checkBounds c .instruction (jumpTarget c a) = true ↔ a.toNat + c.stackLimit < c.dataBase := by
  rw [checkBounds_instruction, jumpTarget]
  exact and_iff_right (Nat.le_add_left _ _)

/-- The report of a biased address past its window: at most the largest word, biased. -/
theorem toNat_add_le (v : Word) (n : Nat) : v.toNat + n ≤ 2 ^ 32 - 1 + n :=
  Nat.add_le_add_right (Nat.le_pred_of_lt v.isLt) n

/-- R146: JMP needs a target in its window. -/
theorem answers_jmp (hs : s.InCycle) : AnswersAsReady s .jmp := by
  obtain ⟨_, hjump, hout, hempty⟩ := jmpSetsBiasedTarget s hs
  rcases Nat.eq_zero_or_pos s.sp.toNat with hzero | hpos
  · exact answers_of_not_ready (hempty hzero) (fun h => absurd h.1 (by omega)) rfl (.inl rfl)
  · rcases Nat.lt_or_ge (s.top.toNat + s.cfg.stackLimit) s.cfg.dataBase with hin | hpast
    · exact answers_of_ready (hjump hpos hin) ⟨hpos, (checkBounds_jumpTarget _ _).mpr hin⟩ hs.fault_eq_none
    · exact answers_of_not_ready (hout hpos hpast)
        (fun h => Nat.not_lt.mpr hpast ((checkBounds_jumpTarget _ _).mp h.2)) rfl ⟨hpast, toNat_add_le _ _⟩

/-- R147: JZ needs a condition too, and the target is checked before it is popped. -/
theorem answers_jz (hs : s.InCycle) : AnswersAsReady s .jz := by
  obtain ⟨_, hjump, hfall, hout, halone, hempty⟩ := jzJumpsOnZero s hs
  rcases Nat.eq_zero_or_pos s.sp.toNat with hzero | hpos
  · exact answers_of_not_ready (hempty hzero) (fun h => absurd h.1 (by omega)) rfl (.inl rfl)
  · rcases Nat.lt_or_ge (s.top.toNat + s.cfg.stackLimit) s.cfg.dataBase with hin | hpast
    · have hcheck := (checkBounds_jumpTarget _ _).mpr hin
      rcases Nat.lt_or_eq_of_le hpos with htwo | hone
      · by_cases hc : s.second = 0
        · exact answers_of_ready (hjump htwo hin hc) ⟨htwo, hcheck⟩ hs.fault_eq_none
        · exact answers_of_ready (hfall htwo hin hc) ⟨htwo, hcheck⟩ hs.fault_eq_none
      · exact answers_of_not_ready (halone hone.symm hin) (fun h => absurd h.1 (by omega)) rfl (.inl rfl)
    · exact answers_of_not_ready (hout hpos hpast)
        (fun h => Nat.not_lt.mpr hpast ((checkBounds_jumpTarget _ _).mp h.2)) rfl ⟨hpast, toNat_add_le _ _⟩

/-- R156: LOAD needs an address in the Program-data window. -/
theorem answers_load (hs : s.InCycle) : AnswersAsReady s .load := by
  obtain ⟨_, hload, _, hout, hempty⟩ := loadReplacesAddressByWord s hs
  rcases Nat.eq_zero_or_pos s.sp.toNat with hzero | hpos
  · exact answers_of_not_ready (hempty hzero) (fun h => absurd h.1 (by omega)) rfl (.inl rfl)
  · rcases Nat.lt_or_ge (s.top.toNat + s.cfg.dataBase) s.cfg.memSize with hin | hpast
    · exact answers_of_ready (hload hpos hin) ⟨hpos, (checkBounds_dataAddress _ _).mpr hin⟩ hs.fault_eq_none
    · exact answers_of_not_ready (hout hpos hpast)
        (fun h => Nat.not_lt.mpr hpast ((checkBounds_dataAddress _ _).mp h.2)) rfl ⟨hpast, toNat_add_le _ _⟩

/-- R157: STOR needs a word to store too, and pops both before the check. -/
theorem answers_stor (hs : s.InCycle) : AnswersAsReady s .stor := by
  obtain ⟨_, hstor, hout, hfew⟩ := storWritesDataWord s hs
  rcases Nat.lt_or_ge 1 s.sp.toNat with htwo | hone
  · rcases Nat.lt_or_ge (s.top.toNat + s.cfg.dataBase) s.cfg.memSize with hin | hpast
    · exact answers_of_ready (hstor htwo hin) ⟨htwo, (checkBounds_dataAddress _ _).mpr hin⟩ hs.fault_eq_none
    · exact answers_of_not_ready (hout htwo hpast)
        (fun h => Nat.not_lt.mpr hpast ((checkBounds_dataAddress _ _).mp h.2)) rfl ⟨hpast, toNat_add_le _ _⟩
  · exact answers_of_not_ready (hfew hone) (fun h => absurd h.1 (by omega)) rfl (.inl rfl)

end

/-- R214: so every primitive answers as its readiness says. -/
theorem answersAsReady {s : State} (hs : s.InCycle) (m : Op) : AnswersAsReady s m := by
  cases m with
  | halt => exact answers_of_ready (exec_halt s) trivial hs.fault_eq_none
  | add => exact answers_of_binary hs aluAdd (exec_add s) Iff.rfl
  | sub => exact answers_of_binary hs aluSub (exec_sub s) Iff.rfl
  | mul => exact answers_of_binary hs aluMul (exec_mul s) Iff.rfl
  | div => exact answers_div hs
  | dup => exact answers_dup hs
  | jmp => exact answers_jmp hs
  | jz => exact answers_jz hs
  | prn => exact answers_of_emitTop hs _ (exec_prn s) Iff.rfl
  | prnchar => exact answers_of_emitTop hs _ (exec_prnchar s) Iff.rfl
  | load => exact answers_load hs
  | stor => exact answers_stor hs

/-- Settles O48: an error is what tells the two answers apart. -/
theorem errorExactlyWhenNotReady : Obligations.ErrorExactlyWhenNotReady := by
  intro s m hs
  obtain ⟨t, h, ⟨hready, hnone⟩ | ⟨hready, e, hsome, _⟩⟩ := answersAsReady hs m
  · exact ⟨t, h, iff_of_true hnone hready⟩
  · exact ⟨t, h, iff_of_false (by simp [hsome]) hready⟩

/-- Settles O28: the reserved word is the primitive, and the primitive is ready. -/
theorem reservedTagCompletes : Obligations.ReservedTagCompletes := by
  intro s m hs hready
  obtain ⟨⟨_, _, _, _, hinj⟩, _⟩ := id hs
  obtain ⟨t, h, hfault⟩ := errorExactlyWhenNotReady s m hs
  exact ⟨t, (exec_rsvd3_id hinj m).trans h, hfault.mpr hready, h⟩

/-! ### Every execute phase answers -/

/-- An outcome that is a next state, whose report is none or one a cycle can make. -/
def Answers (c : Config) (o : Host.Outcome State Fault Refusal) : Prop :=
  ∃ t, o = .next t ∧ ∀ e, t.fault = some e → e.Reportable c

/-- The fatal entry of a Running state reports the error raised. -/
theorem answers_raise {s : State} (hrun : s.Running) {e : FatalError} (he : e.Reportable s.cfg) :
    Answers s.cfg (.next (s.raise e)) := by
  refine ⟨_, rfl, fun e' he' => ?_⟩
  rw [raise_of_running hrun] at he'
  exact Option.some.inj he' ▸ he

theorem answers_primitive {s : State} (hs : s.InCycle) (m : Op) : Answers s.cfg (exec m.instr s) := by
  obtain ⟨t, h, ⟨_, hnone⟩ | ⟨_, e, hsome, he⟩⟩ := answersAsReady hs m
  · exact ⟨t, h, fun e' he' => by simp [hnone] at he'⟩
  · exact ⟨t, h, fun e' he' => Option.some.inj (hsome.symm.trans he') ▸ he⟩

/-- R120: a literal answers, the full stack reported at `STACK_LIMIT`. -/
theorem answers_lit {s : State} (hs : s.InCycle) (p : Payload) : Answers s.cfg (exec (.lit p) s) := by
  obtain ⟨_, hroom, hfull⟩ := litPushesPayload s p hs
  rcases Nat.lt_or_eq_of_le hs.succ_sp_le with h | h
  · exact ⟨_, hroom h, fun e he => by simp [hs.fault_eq_none] at he⟩
  · exact ⟨_, hfull h, fun e he => Option.some.inj he ▸ .inr rfl⟩

theorem exec_answers {s : State} (hs : s.InCycle) (i : Instr) : Answers s.cfg (exec i s) := by
  cases i using Instr.op_cases with
  | lit p => exact answers_lit hs p
  | nlit p => rw [exec_nlit_eq_exec_lit]; exact answers_lit hs p
  | op m => exact answers_primitive hs m
  | rsvd3 id =>
    rcases exec_rsvd3_cases id s with ⟨m, _, he⟩ | ⟨_, he⟩
    · rw [he]; exact answers_primitive hs m
    · rw [he]; exact answers_raise hs.running trivial

theorem execWord_answers {s : State} (hs : s.InCycle) (w : Word) : Answers s.cfg (execWord w s) := by
  cases hd : decode s.cfg.opid w with
  | instr i => rw [execWord_of_instr hd]; exact exec_answers hs i
  | unknownOpcode id => simp only [execWord, hd, execUnknown]; exact answers_raise hs.running trivial

end Sys2Proof.Machine

/-!
PROOF. The invariants of the machine (10_state.md R37): each update of the state keeps them under its own condition, so
each effect does, and so does every step; and that a step from them answers, with the reports of R171.
-/

namespace Sys2Proof.Machine

/-! ### Reset -/

/-- `IP` at reset, one below the Instructions window (R40). -/
theorem toNat_fresh_ip {c : Config} (hc : c.WellFormed) : (State.fresh c).ip.toNat = c.stackLimit - 1 := by
  obtain ⟨_, hwindow, hdata, hmem, _⟩ := hc
  exact toNat_ofNat_of_lt (by omega)

/-- Settles O36: field by field. -/
theorem resetValues : Obligations.ResetValues := fun _ hc =>
  ⟨⟨rfl, rfl⟩, toNat_fresh_ip hc, rfl, rfl, rfl, rfl, rfl, fun _ => rfl⟩

theorem inv_fresh {c : Config} (hc : c.WellFormed) : (State.fresh c).Inv := by
  have hip := toNat_fresh_ip hc
  have ⟨hpos, hwindow, _⟩ := hc
  exact {
    config := hc
    memory := List.Pairwise.nil
    exists_ := fun _ h => absurd h List.not_mem_nil
    sp_range := hpos
    ip_low := by rw [hip, fresh_cfg]; omega
    ip_high := by rw [hip, fresh_cfg]; omega
    live := fun a hpos hle => absurd hpos (Nat.not_lt.mpr hle)
    zero := rfl
    stopped := fun h => absurd rfl h
    report := trivial }

theorem noCycleYet_fresh {c : Config} (hc : c.WellFormed) : (State.fresh c).NoCycleYet := by
  have hip := toNat_fresh_ip hc
  obtain ⟨hpos, _⟩ := hc
  exact { ip := by rw [hip, fresh_cfg]; omega, sp := rfl, tr := rfl, dr := rfl, out := rfl }

/-- Settles O37: no word is written and `SP` is 0, so nothing is asked of memory. -/
theorem resetHasInvariant : Obligations.ResetHasInvariant :=
  ⟨fun _ hc => ⟨inv_fresh hc, { machine := inv_fresh hc, fresh := fun _ => noCycleYet_fresh hc }⟩,
    inv_fresh config_ref_wellFormed⟩

/-! ### The updates of the state -/

section

variable {s t : State}

/-- A Running state with the invariants is one an execute phase can start in. -/
theorem State.Inv.inCycle (h : s.Inv) (hrun : s.Running) : s.InCycle := ⟨h.config, hrun, h.sp_range⟩

theorem State.Inv.latch (h : s.Inv) (w : Word) : (s.latch w).Inv := { h with }

theorem State.Inv.emit (h : s.Inv) (e : OutEvent) : (s.emit e).Inv := { h with }

theorem State.Inv.stop (h : s.Inv) : s.stop.Inv := { h with stopped := fun _ => rfl }

/-- The fatal entry, where the record it leaves is in range (R27). -/
theorem State.Inv.raise (h : s.Inv) {e : FatalError} (hreport : faultInRange (s.raise e).fault) : (s.raise e).Inv :=
  { h with stopped := fun _ => rfl, report := hreport }

/-- A lower `SP`: its live words were live before. -/
theorem State.Inv.setSp (h : s.Inv) {n : Word} (hn : n.toNat ≤ s.sp.toNat) : (s.setSp n).Inv :=
  { h with
    sp_range := Nat.lt_of_le_of_lt hn h.sp_range
    live := fun a hpos hle => h.live a hpos (Nat.le_trans hle hn) }

/-- `IP` in the Instructions window. -/
theorem State.Inv.setIp (h : s.Inv) {a : Nat} (hlow : s.cfg.stackLimit ≤ a) (hhigh : a < s.cfg.dataBase) :
    (s.setIp (BitVec.ofNat 32 a)).Inv := by
  have ⟨_, _, hdata, hmem, _⟩ := h.config
  have ha : (BitVec.ofNat 32 a).toNat = a := toNat_ofNat_of_lt (by omega)
  exact { h with
    ip_low := by rw [setIp_ip, setIp_cfg, ha]; omega
    ip_high := by rw [setIp_ip, setIp_cfg, ha]; omega }

/-- A word written at an address that exists and is not 0. -/
theorem State.Inv.setWord (h : s.Inv) {a : Nat} (v : Word) (hpos : 0 < a) (ha : a < s.cfg.memSize) :
    (s.setWord a v).Inv :=
  { h with
    memory := Memory.write_wf h.memory a v
    exists_ := fun c hc => by
      rcases Memory.mem_write hc with rfl | hc
      · exact ha
      · exact h.exists_ c hc
    live := fun b hb hle => by
      rw [setWord_mem, Memory.lookup_write]
      split_ifs
      · simp
      · exact h.live b hb hle
    zero := by rw [setWord_mem, Memory.lookup_write, if_neg (Nat.ne_of_lt hpos), h.zero] }

/-- A write in the Stack window, above address 0. -/
theorem State.Inv.setWord_stack (h : s.Inv) {a : Nat} (v : Word) (hpos : 0 < a) (ha : a < s.cfg.stackLimit) :
    (s.setWord a v).Inv := by
  have ⟨_, hwindow, hdata, hmem, _⟩ := h.config
  exact h.setWord v hpos (by omega)

/-- A push: the word is written before `SP` takes it in. -/
theorem State.Inv.push (h : s.Inv) (v : Word) (hroom : s.sp.toNat + 1 < s.cfg.stackLimit) :
    ((s.setSp (BitVec.ofNat 32 (s.sp.toNat + 1))).setWord (s.sp.toNat + 1) v).Inv := by
  have hwritten := h.setWord_stack v (Nat.succ_pos _) hroom
  have ⟨_, hwindow, hdata, hmem, _⟩ := h.config
  have hsp : (BitVec.ofNat 32 (s.sp.toNat + 1)).toNat = s.sp.toNat + 1 := toNat_ofNat_of_lt (by omega)
  exact { hwritten with
    sp_range := by rwa [setWord_sp, setSp_sp, hsp]
    live := fun a hpos hle => by
      rw [setWord_sp, setSp_sp, hsp] at hle
      rcases Nat.lt_or_eq_of_le hle with hlt | rfl
      · exact hwritten.live a hpos (Nat.le_of_lt_succ hlt)
      · simp [Memory.lookup_write] }

/-! ### Effects -/

/-- Every effect keeps the invariants, if what it reports is in range. -/
theorem State.Inv.effect {i : Instr} (h : s.Inv) (he : Effect s i t) (hreport : faultInRange t.fault) : t.Inv := by
  have ⟨hlimit, hwindow, _⟩ := h.config
  cases he with
  | halted => exact h.stop
  | raised _ e n below => exact (h.setSp below).raise hreport
  | pushed _ v _ room => exact h.push v room
  | combined _ v _ two range =>
    have hsp := toNat_sub_one (v := s.sp) (by omega)
    exact (h.setSp (n := s.sp - 1) (by omega)).setWord_stack v (by omega)
      (Nat.lt_of_le_of_lt (Nat.sub_le _ _) range)
  | jumped _ n a _ below low high => exact (h.setSp below).setIp low high
  | fellThrough n below => exact h.setSp below
  | emitted _ e _ one =>
    have hsp := toNat_sub_one one
    exact (h.setSp (n := s.sp - 1) (by omega)).emit e
  | loaded v one range => exact h.setWord_stack v one range
  | stored n v below inside =>
    obtain ⟨hlow, hhigh⟩ := (checkBounds_programData _ _).mp inside
    exact (h.setSp below).setWord v (by omega) hhigh

theorem State.Inv.execWord {w : Word} (h : s.Inv) (hw : execWord w s = .next t) (hreport : faultInRange t.fault) :
    t.Inv := by
  rcases execWord_cases hw with ⟨i, _, hi⟩ | ⟨id, _, rfl⟩
  · obtain ⟨j, _, he⟩ := exec_effect_runsAs hi
    exact h.effect he hreport
  · exact h.raise hreport

/-- Fetch and decode keep them, where the fetch is in the window. -/
theorem State.Inv.fetched (h : s.Inv) (hlow : s.cfg.stackLimit ≤ s.ip.toNat + 1)
    (hhigh : s.ip.toNat + 1 < s.cfg.dataBase) : s.fetched.Inv :=
  (h.setIp hlow hhigh).latch _

/-! ### Steps -/

/-- A step from a Running state with the invariants: the fetch fails at `DATA_BASE`, or the execute phase of the next
word runs on a state with the invariants. -/
theorem step_of_inv (h : s.Inv) (hrun : s.Running) :
    (s.ip.toNat + 1 = s.cfg.dataBase ∧ step s = .next (s.raise (.outOfBounds .instruction s.cfg.dataBase))) ∨
      (s.ip.toNat + 1 < s.cfg.dataBase ∧ s.fetched.Inv ∧ step s = execWord s.nextWord s.fetched) := by
  rcases step_cases h.config with ⟨hstopped, _⟩ | ⟨_, hout, hstep⟩ | ⟨_, hlow, hhigh, hstep⟩
  · exact absurd ((isRunning_iff s).mpr hrun) (by simp [hstopped])
  · have hlow := h.ip_low
    have hhigh := h.ip_high
    have hend : s.ip.toNat + 1 = s.cfg.dataBase := by omega
    exact .inl ⟨hend, hend ▸ hstep⟩
  · exact .inr ⟨hhigh, h.fetched hlow hhigh, hstep⟩

/-- R102, R170, R171: such a step answers, and reports what a cycle can. -/
theorem step_answers (h : s.Inv) (hrun : s.Running) : Answers s.cfg (step s) := by
  rcases step_of_inv h hrun with ⟨_, hstep⟩ | ⟨_, hfetched, hstep⟩
  · rw [hstep]
    have ⟨hpos, _⟩ := h.config
    exact answers_raise hrun ⟨le_refl _, by have := s.ip.isLt; omega⟩
  · rw [hstep]
    exact execWord_answers (hfetched.inCycle hrun) _

/-- A report that a cycle can make leaves the record in range. -/
theorem faultInRange_of_reportable {c : Config} (hc : c.WellFormed) {f : Option FatalError}
    (h : ∀ e, f = some e → e.Reportable c) : faultInRange f := by
  cases f with
  | none => trivial
  | some e => exact (h e rfl).inRange hc

theorem State.Inv.step (h : s.Inv) (hstep : step s = .next t) : t.Inv := by
  by_cases hrun : s.Running
  · obtain ⟨t', ht', hreport⟩ := step_answers h hrun
    cases ht'.symm.trans hstep
    have hrange := faultInRange_of_reportable h.config hreport
    rcases step_of_inv h hrun with ⟨_, he⟩ | ⟨_, hfetched, he⟩
    · cases he.symm.trans hstep
      exact h.raise hrange
    · exact hfetched.execWord (he.symm.trans hstep) hrange
  · cases (step_of_not_running hrun).symm.trans hstep
    exact h

end

/-- Settles O38: the updates a step is made of keep the invariants, and its report is in range. -/
theorem stepKeepsInvariant : Obligations.StepKeepsInvariant := fun _ _ h hstep => h.step hstep

/-- Settles O40: a Running state answers by the cycle, any other with itself. -/
theorem stepAlwaysAnswers : Obligations.StepAlwaysAnswers := by
  intro s h
  by_cases hrun : s.Running
  · obtain ⟨t, ht, _⟩ := step_answers h hrun
    exact ⟨t, ht⟩
  · exact ⟨s, step_of_not_running hrun⟩

/-- The constants stay, and only a jump moves `IP` in the execute phase of a word, into the Instructions window. -/
theorem execWord_ip {w : Word} {s t : State} (h : execWord w s = .next t) :
    t.cfg = s.cfg ∧ (t.ip = s.ip ∨ ∃ a, s.cfg.stackLimit ≤ a ∧ a < s.cfg.dataBase ∧ t.ip = BitVec.ofNat 32 a) := by
  rcases execWord_cases h with ⟨i, _, hi⟩ | ⟨id, _, rfl⟩
  · obtain ⟨j, _, he⟩ := exec_effect_runsAs hi
    obtain ⟨hcfg, _⟩ := he.constants
    exact ⟨hcfg, he.ip_cases.imp_right And.right⟩
  · exact ⟨rfl, .inl rfl⟩

/-- Settles O42: the fetch moves `IP` into the window, and only a jump moves it again, within the window. -/
theorem ipInWindowAfterFetch : Obligations.IpInWindowAfterFetch := by
  intro s t h hrun hstep
  have ⟨_, hwindow, hdata, hmem, _⟩ := h.config
  rcases step_of_inv h hrun with ⟨_, he⟩ | ⟨hhigh, _, he⟩
  · cases he.symm.trans hstep
    exact .inr ⟨by simp [hrun.2], rfl⟩
  · obtain ⟨hcfg, hip⟩ := execWord_ip (he.symm.trans hstep)
    have hin : ∃ a, s.cfg.stackLimit ≤ a ∧ a < s.cfg.dataBase ∧ t.ip = BitVec.ofNat 32 a :=
      hip.elim (fun hsame => ⟨_, h.ip_low, hhigh, hsame⟩) id
    obtain ⟨a, hlow, hhigh, ha⟩ := hin
    rw [hcfg, fetched_cfg, ha, toNat_ofNat_of_lt (by omega)]
    exact .inl ⟨hlow, hhigh⟩

/-- Settles O47: the report of the step that answers, window by window. -/
theorem reportedAddresses : Obligations.ReportedAddresses := by
  intro s t k a h hrun hstep hfault
  obtain ⟨t', ht', hreport⟩ := step_answers h hrun
  cases ht'.symm.trans hstep
  have hrange := hreport _ hfault
  cases k with
  | stack => exact hrange
  | instruction => exact hrange
  | programData => exact hrange

end Sys2Proof.Machine

/-!
PROOF. The host's transactions and the invariants of a session (70_reset_and_hazards.md R201 to R219): the copy of a load
is a list of writes in the Instructions window, and a run is steps under fuel.
-/

namespace Sys2Proof.Machine

/-! ### Load -/

/-- Words written at addresses that exist and are not 0. -/
theorem State.Inv.setWords {s : State} (h : s.Inv) {a : Nat} (ws : List Word) (hpos : 0 < a)
    (ha : a + ws.length ≤ s.cfg.memSize) : (s.setWords a ws).Inv := by
  induction ws generalizing s a with
  | nil => exact h
  | cons w ws ih =>
    rw [List.length_cons] at ha
    rw [setWords_cons]
    exact ih (h.setWord w hpos (by omega)) (Nat.succ_pos _) (by rw [setWord_cfg]; omega)

theorem State.Inv.copyFrom_zero {s : State} (h : s.Inv) (ws : List Word) : (s.copyFrom 0 ws).Inv := by
  have ⟨hpos, hwindow, hdata, _⟩ := h.config
  refine h.setWords _ hpos ?_
  rw [List.length_take]
  omega

theorem noCycleYet_copyFrom {s : State} (h : s.NoCycleYet) (i : Nat) (ws : List Word) :
    (s.copyFrom i ws).NoCycleYet := { h with }

theorem noCycleYet_raise {s : State} (h : s.NoCycleYet) (e : FatalError) : (s.raise e).NoCycleYet := { h with }

/-- `FAULT` is write-once, so a raised error in range leaves a record in range (R27). -/
theorem faultInRange_raise {s : State} {e : FatalError} (h : faultInRange s.fault) (he : e.InRange) :
    faultInRange (s.raise e).fault := by
  rw [raise_fault]
  cases hf : s.fault with
  | none => exact he
  | some e' => rwa [hf] at h

/-- R201, R202: the copy from index 0 answers; it keeps the invariants, and no cycle has been performed. -/
theorem loadFrom_zero_answers {s : State} (h : s.Inv) (ws : List Word) :
    ∃ t, (loadFrom 0 ws s).finish = .next t ∧ t.Inv ∧ (s.NoCycleYet → t.NoCycleYet) := by
  have ⟨_, hwindow, hdata, hmem, _⟩ := h.config
  have hcopy := h.copyFrom_zero ws
  rw [loadFrom_eq h.config ws 0 hwindow]
  split_ifs with hfit
  · exact ⟨_, rfl, hcopy, fun hn => noCycleYet_copyFrom hn 0 ws⟩
  · have hrange : s.cfg.dataBase < 2 ^ 33 := by omega
    exact ⟨_, rfl, hcopy.raise (faultInRange_raise hcopy.report hrange),
      fun hn => noCycleYet_raise (noCycleYet_copyFrom hn 0 ws) _⟩

/-- R219: once a run has begun a load is refused. -/
theorem load_of_not_loadable {h : Session} (hl : ¬h.loadable = true) (ws : List Word) :
    load ws h = .refused .loadAfterRun := by
  rw [load, if_neg hl]

theorem load_of_runBegun {h : Session} (hb : h.runBegun = true) (ws : List Word) :
    load ws h = .refused .loadAfterRun :=
  load_of_not_loadable (fun hl => Bool.noConfusion (hb.symm.trans (loadable_iff.mp hl).1)) ws

/-- Settles O39: a load is the copy from index 0, made only where no cycle has advanced `IP`. -/
theorem loadingKeepsInvariant : Obligations.LoadingKeepsInvariant := by
  constructor
  · intro ws h u hinv hload
    obtain ⟨_, t, ht, rfl⟩ := load_next_iff.mp hload
    obtain ⟨t', ht', hinv', _⟩ := loadFrom_zero_answers hinv ws
    cases ht'.symm.trans ht
    exact hinv'
  · intro ws h hinv
    refine ⟨fun hb => ?_, fun hb => load_of_runBegun hb ws⟩
    have hfresh := hinv.fresh hb
    obtain ⟨t, ht, hinv', hnone⟩ := loadFrom_zero_answers hinv.machine ws
    exact ⟨{ h with machine := t }, load_next_iff.mpr ⟨loadable_iff.mpr ⟨hb, hfresh.ip⟩, t, ht, rfl⟩,
      { machine := hinv', fresh := fun _ => hnone hfresh }, hb⟩

/-- Settles O58: a load needs both a session without a run and `IP` below the window, and a run takes the first away. -/
theorem loadAfterRunIsRefused : Obligations.LoadAfterRunIsRefused := by
  constructor
  · rintro ws h (hb | hip)
    · exact load_of_runBegun hb ws
    · refine load_of_not_loadable (fun hl => ?_) ws
      have hlow := (loadable_iff.mp hl).2
      omega
  · intro k h u hrun ws
    obtain ⟨t, _, rfl⟩ := run_next_iff.mp hrun
    exact load_of_runBegun rfl ws

/-! ### Runs -/

/-- R104: in a state that is not Running the loop performs no cycle. -/
theorem runFor_of_not_running {s : State} (h : ¬s.Running) (k : Nat) : runFor k s = .next s := by
  cases k with
  | zero => rfl
  | succ k => rw [runFor, if_neg (mt (isRunning_iff s).mp h)]

/-- R104: in a Running state with fuel it performs one, and goes on if the cycle answers. -/
theorem runFor_succ_next_iff {s t : State} (hrun : s.Running) (k : Nat) :
    runFor (k + 1) s = .next t ↔ ∃ u, step s = .next u ∧ runFor k u = .next t := by
  rw [runFor, if_pos ((isRunning_iff s).mpr hrun), step_of_running hrun]
  cases cycle s <;> simp

/-- R37, R104: from the invariants, a run of any length answers with them: each of its steps does. -/
theorem State.Inv.runFor {s : State} (h : s.Inv) (k : Nat) : ∃ t, runFor k s = .next t ∧ t.Inv := by
  induction k generalizing s with
  | zero => exact ⟨s, rfl, h⟩
  | succ k ih =>
    by_cases hrun : s.Running
    · obtain ⟨u, hu⟩ := stepAlwaysAnswers s h
      obtain ⟨t, ht, hinv⟩ := ih (h.step hu)
      exact ⟨t, (runFor_succ_next_iff hrun k).mpr ⟨u, hu, ht⟩, hinv⟩
    · exact ⟨s, runFor_of_not_running hrun _, h⟩

/-- Settles O41: the run loop keeps the machine's invariants, and once a run has begun a session asks no more. -/
theorem runKeepsInvariant : Obligations.RunKeepsInvariant := by
  refine ⟨fun k s h => h.runFor k, fun k h hinv => ?_⟩
  obtain ⟨t, ht, hinv'⟩ := hinv.machine.runFor k
  exact ⟨_, run_next_iff.mpr ⟨t, ht, rfl⟩, { machine := hinv', fresh := fun hb => Bool.noConfusion hb }, rfl⟩

/-- R104: where a run has ended, any more fuel leads to the same state. -/
theorem runFor_add_of_ended {k : Nat} (j : Nat) {s t : State} (h : runFor k s = .next t) (ht : ¬t.Running) :
    runFor (k + j) s = .next t := by
  induction k generalizing s with
  | zero =>
    cases h
    exact runFor_of_not_running ht _
  | succ k ih =>
    by_cases hrun : s.Running
    · obtain ⟨u, hu, hrest⟩ := (runFor_succ_next_iff hrun k).mp h
      rw [Nat.add_right_comm]
      exact (runFor_succ_next_iff hrun (k + j)).mpr ⟨u, hu, ih hrest⟩
    · cases (runFor_of_not_running hrun _).symm.trans h
      exact runFor_of_not_running ht _

/-- Settles O59: the fuel left over is not used, and a second run starts where no cycle is performed. -/
theorem endedRunIsFinal : Obligations.EndedRunIsFinal := by
  refine ⟨fun k j s t h ht => runFor_add_of_ended j h ht, fun k j h u hrun hu => ?_⟩
  obtain ⟨t, _, rfl⟩ := run_next_iff.mp hrun
  exact run_next_iff.mpr ⟨t, runFor_of_not_running hu j, rfl⟩

end Sys2Proof.Machine

/-!
PROOF. Stale slots (10_state.md R38): each operation of a cycle takes two states alike but for them to results alike but
for them, since no operation reads a Stack-window word above `SP`; and with it the step.
-/

namespace Sys2Proof.Machine

/-! ### The relation -/

/-- Alike but for stale slots, in a configuration the spec allows. -/
structure Alike (s t : State) : Prop where
  config : s.cfg.WellFormed
  same : SameButStale s t

/-- Results of one kind with one value, their states alike. -/
inductive ResAlike {α : Type} : Res α → Res α → Prop where
  | ok (v : α) {s t : State} (h : Alike s t) : ResAlike (.ok v s) (.ok v t)
  | fatal {s t : State} (h : Alike s t) : ResAlike (.fatal s) (.fatal t)
  | absent (a : Nat) : ResAlike (.absent a) (.absent a)

/-- Alike is another memory, its words above `SP` apart. -/
theorem alike_iff {s t : State} :
    Alike s t ↔ s.cfg.WellFormed ∧ ∃ m, t = { s with mem := m } ∧
      ∀ a, ¬(s.sp.toNat < a ∧ a < s.cfg.stackLimit) → m.read a = s.mem.read a := by
  refine ⟨fun ⟨hc, ht, hread⟩ => ⟨hc, t.mem, ht, hread⟩, ?_⟩
  rintro ⟨hc, m, rfl, hread⟩
  exact ⟨hc, rfl, hread⟩

section

variable {s t : State}

theorem Alike.cfg_eq (h : Alike s t) : t.cfg = s.cfg := (congrArg State.cfg h.same.1 :)

theorem Alike.sp_eq (h : Alike s t) : t.sp = s.sp := (congrArg State.sp h.same.1 :)

theorem Alike.ip_eq (h : Alike s t) : t.ip = s.ip := (congrArg State.ip h.same.1 :)

theorem Alike.running_iff (h : Alike s t) : t.Running ↔ s.Running := iff_of_eq (congrArg State.Running h.same.1 :)

theorem Alike.wellFormed_right (h : Alike s t) : t.cfg.WellFormed := by
  rw [h.cfg_eq]
  exact h.config

/-- A word that is not stale reads the same in both. -/
theorem Alike.read_eq (h : Alike s t) {a : Nat} (ha : a ≤ s.sp.toNat ∨ s.cfg.stackLimit ≤ a) :
    t.mem.read a = s.mem.read a := by
  obtain ⟨_, _, hread⟩ := h
  exact hread a (by omega)

/-! ### The updates of the state -/

/-- An update of other registers, the same in every memory, keeps two states alike. -/
theorem Alike.update (h : Alike s t) (f : State → State) (hf : ∀ m, f { s with mem := m } = { f s with mem := m })
    (hcfg : (f s).cfg = s.cfg) (hsp : (f s).sp = s.sp) : Alike (f s) (f t) := by
  obtain ⟨hc, m, rfl, hread⟩ := alike_iff.mp h
  have hmem : (f s).mem = s.mem := (congrArg State.mem (hf s.mem) :)
  refine alike_iff.mpr ⟨by rwa [hcfg], m, hf m, ?_⟩
  rwa [hcfg, hsp, hmem]

theorem Alike.setIp (h : Alike s t) (v : Word) : Alike (s.setIp v) (t.setIp v) :=
  h.update (·.setIp v) (fun _ => rfl) rfl rfl

theorem Alike.latch (h : Alike s t) (w : Word) : Alike (s.latch w) (t.latch w) :=
  h.update (·.latch w) (fun _ => rfl) rfl rfl

theorem Alike.emit (h : Alike s t) (e : OutEvent) : Alike (s.emit e) (t.emit e) :=
  h.update (·.emit e) (fun _ => rfl) rfl rfl

theorem Alike.stop (h : Alike s t) : Alike s.stop t.stop :=
  h.update State.stop (fun _ => rfl) rfl rfl

theorem Alike.raise (h : Alike s t) (e : FatalError) : Alike (s.raise e) (t.raise e) :=
  h.update (·.raise e) (fun _ => rfl) rfl rfl

/-- A lower `SP` makes more slots stale. -/
theorem Alike.setSp (h : Alike s t) {n : Word} (hn : n.toNat ≤ s.sp.toNat) : Alike (s.setSp n) (t.setSp n) := by
  obtain ⟨hc, m, rfl, hread⟩ := alike_iff.mp h
  refine alike_iff.mpr ⟨hc, m, rfl, fun a ha => hread a ?_⟩
  simp only [setSp_sp, setSp_cfg] at ha
  omega

theorem Alike.setWord (h : Alike s t) (a : Nat) (v : Word) : Alike (s.setWord a v) (t.setWord a v) := by
  obtain ⟨hc, m, rfl, hread⟩ := alike_iff.mp h
  refine alike_iff.mpr ⟨hc, m.write a v, rfl, fun b hb => ?_⟩
  rw [setWord_mem, Memory.read_write, Memory.read_write, hread b hb]

/-- A push writes the one slot that is stale before it and live after it. -/
theorem Alike.push (h : Alike s t) (v : Word) (hroom : s.sp.toNat + 1 < s.cfg.stackLimit) :
    Alike ((s.setSp (BitVec.ofNat 32 (s.sp.toNat + 1))).setWord (s.sp.toNat + 1) v)
      ((t.setSp (BitVec.ofNat 32 (s.sp.toNat + 1))).setWord (s.sp.toNat + 1) v) := by
  obtain ⟨hc, m, rfl, hread⟩ := alike_iff.mp h
  have ⟨_, hwindow, hdata, hmem, _⟩ := hc
  have hsp : (BitVec.ofNat 32 (s.sp.toNat + 1)).toNat = s.sp.toNat + 1 := toNat_ofNat_of_lt (by omega)
  refine alike_iff.mpr ⟨hc, m.write (s.sp.toNat + 1) v, rfl, fun a ha => ?_⟩
  simp only [setWord_sp, setSp_sp, setWord_cfg, setSp_cfg, hsp] at ha
  rw [setWord_mem, setSp_mem, Memory.read_write, Memory.read_write]
  split_ifs with hslot
  · rfl
  · exact hread a (by omega)

/-! ### The operations -/

theorem ResAlike.andThen {α β : Type} {r q : Res α} {k l : α → State → Res β} (h : ResAlike r q)
    (hk : ∀ v s t, Alike s t → ResAlike (k v s) (l v t)) : ResAlike (r.andThen k) (q.andThen l) := by
  cases h with
  | ok v h => exact hk v _ _ h
  | fatal h => exact .fatal h
  | absent a => exact .absent a

theorem ResAlike.finish {r q : Res Unit} (h : ResAlike r q) : OutcomesRelated SameButStale r.finish q.finish := by
  cases h with
  | ok _ h => exact h.same
  | fatal h => exact h.same
  | absent a => rfl

theorem check_alike (h : Alike s t) (k : Region) (a : Nat) : ResAlike (check k a s) (check k a t) := by
  rw [check_eq, check_eq, h.cfg_eq]
  split_ifs
  · exact .ok _ h
  · exact .fatal (h.raise _)

/-- A checked read of a word that is not stale. -/
theorem readChecked_alike (h : Alike s t) (k : Region) {a : Nat} (ha : a ≤ s.sp.toNat ∨ s.cfg.stackLimit ≤ a) :
    ResAlike (readChecked k a s) (readChecked k a t) := by
  rw [readChecked_eq h.config, readChecked_eq h.wellFormed_right, h.cfg_eq, h.read_eq ha]
  split_ifs
  · exact .ok _ h
  · exact .fatal (h.raise _)

theorem writeChecked_alike (h : Alike s t) (k : Region) (a : Nat) (v : Word) :
    ResAlike (writeChecked k a v s) (writeChecked k a v t) := by
  rw [writeChecked_eq h.config, writeChecked_eq h.wellFormed_right, h.cfg_eq]
  split_ifs
  · exact .ok _ (h.setWord a v)
  · exact .fatal (h.raise _)

theorem push_alike (h : Alike s t) (v : Word) : ResAlike (push v s) (push v t) := by
  rw [push_eq h.config, push_eq h.wellFormed_right, h.cfg_eq, h.sp_eq]
  split_ifs with hroom
  · exact .ok _ (h.push v hroom)
  · exact .fatal (h.raise _)

theorem peek_alike (h : Alike s t) : ResAlike (peek s) (peek t) := by
  rw [peek, peek, h.sp_eq]
  exact readChecked_alike h .stack (.inl (le_refl _))

theorem pop_alike (h : Alike s t) : ResAlike (pop s) (pop t) := by
  rw [pop_eq h.config, pop_eq h.wellFormed_right, h.cfg_eq, h.sp_eq, h.read_eq (.inl (le_refl _))]
  split_ifs with hc
  · obtain ⟨hpos, _⟩ := hc
    exact .ok _ (h.setSp (by rw [toNat_sub_one hpos]; exact Nat.sub_le _ _))
  · exact .fatal (h.raise _)

theorem popPair_alike (h : Alike s t) : ResAlike (popPair s) (popPair t) :=
  (pop_alike h).andThen fun _ _ _ h => (pop_alike h).andThen fun _ _ _ h => .ok _ h

theorem binary_alike (f : Word → Word → Word) (h : Alike s t) : ResAlike (binary f s) (binary f t) :=
  (popPair_alike h).andThen fun _ _ _ h => push_alike h _

theorem emitTop_alike (f : Word → OutEvent) (h : Alike s t) : ResAlike (emitTop f s) (emitTop f t) :=
  (pop_alike h).andThen fun _ _ _ h => .ok _ (h.emit _)

theorem onTarget_alike {k : Word → State → Res Unit} (hk : ∀ v s t, Alike s t → ResAlike (k v s) (k v t))
    (h : Alike s t) : ResAlike (onTarget k s) (onTarget k t) := by
  refine (pop_alike h).andThen fun v s t h => ?_
  rw [h.cfg_eq]
  exact (check_alike h _ _).andThen fun _ s t h => hk v s t h

theorem setTarget_alike (h : Alike s t) (v : Word) :
    Alike (s.setIp (BitVec.ofNat 32 (jumpTarget s.cfg v))) (t.setIp (BitVec.ofNat 32 (jumpTarget t.cfg v))) := by
  rw [h.cfg_eq]
  exact h.setIp _

theorem jumpOnZero_alike (v : Word) (h : Alike s t) : ResAlike (jumpOnZero v s) (jumpOnZero v t) := by
  refine (pop_alike h).andThen fun c s t h => .ok () ?_
  split_ifs
  · exact setTarget_alike h v
  · exact h

/-- JMP once its target is accepted (R146). -/
def jumpTo (t : Word) (s : State) : Res Unit := .ok () (s.setIp (BitVec.ofNat 32 (jumpTarget s.cfg t)))

/-- A data word lies above the Stack window, so it is not stale. -/
theorem readData_alike (h : Alike s t) (a : Word) :
    ResAlike (readChecked .programData (dataAddress s.cfg a) s) (readChecked .programData (dataAddress t.cfg a) t) := by
  rw [h.cfg_eq]
  obtain ⟨_, hwindow, _⟩ := h.config
  exact readChecked_alike h _ (.inr (Nat.le_add_left_of_le hwindow))

/-! ### The execute phase and the step -/

theorem execOp_alike (h : Alike s t) (m : Op) :
    OutcomesRelated SameButStale (exec m.instr s) (exec m.instr t) := by
  cases m with
  | halt => exact h.stop.same
  | add => exact (binary_alike aluAdd h).finish
  | sub => exact (binary_alike aluSub h).finish
  | mul => exact (binary_alike aluMul h).finish
  | div =>
    refine ((popPair_alike h).andThen fun ab s t h => ?_).finish
    split_ifs
    · exact .fatal (h.raise _)
    · exact push_alike h _
  | dup => exact ((peek_alike h).andThen fun v _ _ h => push_alike h v).finish
  | jmp => exact (onTarget_alike (k := jumpTo) (fun v _ _ h => .ok () (setTarget_alike h v)) h).finish
  | jz => exact (onTarget_alike (fun v _ _ h => jumpOnZero_alike v h) h).finish
  | prn => exact (emitTop_alike _ h).finish
  | prnchar => exact (emitTop_alike _ h).finish
  | load =>
    exact ((pop_alike h).andThen fun a _ _ h => (readData_alike h a).andThen fun v _ _ h => push_alike h v).finish
  | stor =>
    refine ((pop_alike h).andThen fun a _ _ h => (pop_alike h).andThen fun v s t h => ?_).finish
    rw [h.cfg_eq]
    exact writeChecked_alike h _ _ _

theorem execUnknown_alike (h : Alike s t) (id : Payload) :
    OutcomesRelated SameButStale (execUnknown id s) (execUnknown id t) := (h.raise _).same

theorem exec_alike (h : Alike s t) (i : Instr) : OutcomesRelated SameButStale (exec i s) (exec i t) := by
  cases i using Instr.op_cases with
  | lit p => exact (push_alike h _).finish
  | nlit p => exact (push_alike h _).finish
  | op m => exact execOp_alike h m
  | rsvd3 id =>
    simp only [exec, execRsvd3, h.cfg_eq]
    cases lookupOp s.cfg.opid id with
    | some m => simp only [execOp_eq]; exact execOp_alike h m
    | none => exact execUnknown_alike h id

theorem execWord_alike (h : Alike s t) (w : Word) : OutcomesRelated SameButStale (execWord w s) (execWord w t) := by
  simp only [execWord, h.cfg_eq]
  cases decode s.cfg.opid w with
  | instr i => exact exec_alike h i
  | unknownOpcode id => exact execUnknown_alike h id

/-- The word fetched lies above the Stack window too. -/
theorem cycle_alike (h : Alike s t) : OutcomesRelated SameButStale (cycle s) (cycle t) := by
  rw [cycle, cycle, fetch_eq h.config, fetch_eq h.wellFormed_right, h.cfg_eq, h.ip_eq]
  split_ifs with hin
  · rw [h.read_eq (.inr hin.1)]
    exact execWord_alike ((h.setIp _).latch _) _
  · exact (h.raise _).same

end

/-- Settles O49: a terminal state stays, and a cycle takes alike states to alike outcomes. -/
theorem staleSlotsAreUnobservable : Obligations.StaleSlotsAreUnobservable := by
  intro s t hc hst
  have h : Alike s t := ⟨hc, hst⟩
  by_cases hrun : s.Running
  · rw [step_of_running hrun, step_of_running (h.running_iff.mpr hrun)]
    exact cycle_alike h
  · rw [step_of_not_running hrun, step_of_not_running (mt h.running_iff.mp hrun)]
    exact hst

end Sys2Proof.Machine

/-!
PROOF. The stack as a whole (20_memory.md R61): what pushing a list leaves, what popping as often answers, and that the
one undoes the other; and the register layout of `FAULT` (60_exceptions.md R174).
-/

namespace Sys2Proof.Machine

/-! ### Last in, first out -/

/-- The state with a list of words pushed: they lie above the former top, and `SP` is at the last of them. -/
def State.pushed (s : State) (vs : List Word) : State :=
  (s.setSp (BitVec.ofNat 32 (s.sp.toNat + vs.length))).setWords (s.sp.toNat + 1) vs

theorem pushed_cons (s : State) (v : Word) (vs : List Word) (h : s.sp.toNat + 1 < 2 ^ 32) :
    s.pushed (v :: vs) = ((s.setSp (BitVec.ofNat 32 (s.sp.toNat + 1))).setWord (s.sp.toNat + 1) v).pushed vs := by
  have hlength : s.sp.toNat + (vs.length + 1) = s.sp.toNat + 1 + vs.length := by omega
  simp only [State.pushed, List.length_cons, setWords_cons, setWord_sp, setSp_sp, toNat_ofNat_of_lt h, hlength]
  rfl

/-- R61: pushing a list that fits succeeds. -/
theorem pushAll_eq {s : State} (hc : s.cfg.WellFormed) (vs : List Word)
    (h : s.sp.toNat + vs.length < s.cfg.stackLimit) : pushAll vs s = .ok () (s.pushed vs) := by
  induction vs generalizing s with
  | nil =>
    rw [State.pushed, setWords_nil, List.length_nil, Nat.add_zero, BitVec.ofNat_toNat, BitVec.setWidth_eq]
    rfl
  | cons v vs ih =>
    rw [List.length_cons] at h
    have ⟨_, hwindow, hdata, hmem, _⟩ := hc
    have hsp : (BitVec.ofNat 32 (s.sp.toNat + 1)).toNat = s.sp.toNat + 1 := toNat_ofNat_of_lt (by omega)
    rw [pushAll, push_eq hc, if_pos (by omega), andThen_ok, pushed_cons s v vs (by omega)]
    refine ih hc ?_
    rw [setWord_sp, setSp_sp, setWord_cfg, setSp_cfg, hsp]
    omega

/-- The `n` words from the top of the stack down. -/
def topWords (s : State) (n : Nat) : List Word :=
  (List.range n).map fun i => s.mem.read (s.sp.toNat - i)

/-- R61: popping as many words as there are at most answers them from the top down. -/
theorem popTimes_eq {s : State} (hc : s.cfg.WellFormed) (n : Nat) (hn : n ≤ s.sp.toNat)
    (hs : s.sp.toNat < s.cfg.stackLimit) :
    popTimes n s = .ok (topWords s n) (s.setSp (BitVec.ofNat 32 (s.sp.toNat - n))) := by
  induction n generalizing s with
  | zero =>
    rw [Nat.sub_zero, BitVec.ofNat_toNat, BitVec.setWidth_eq]
    rfl
  | succ n ih =>
    have hsp : (s.sp - 1).toNat = s.sp.toNat - 1 := toNat_sub_one (by omega)
    have hbelow (k : Nat) : s.sp.toNat - 1 - k = s.sp.toNat - (k + 1) := by omega
    have hrest := ih (s := s.setSp (s.sp - 1)) hc
      (by rw [setSp_sp, hsp]; omega) (by rw [setSp_sp, hsp, setSp_cfg]; omega)
    have htop : topWords s (n + 1) = s.mem.read s.sp.toNat :: topWords (s.setSp (s.sp - 1)) n := by
      simp only [topWords, List.range_succ_eq_map, List.map_cons, List.map_map, Nat.sub_zero, setSp_sp, setSp_mem, hsp,
        hbelow]
      rfl
    rw [popTimes, pop_eq hc, if_pos ⟨by omega, hs⟩, andThen_ok, hrest, andThen_ok, htop, setSp_sp, hsp, hbelow]
    rfl

/-- The words pushed, read from the top down, are the list in reverse. -/
theorem topWords_pushed (s : State) (vs : List Word) (h : s.sp.toNat + vs.length < 2 ^ 32) :
    topWords (s.pushed vs) vs.length = vs.reverse := by
  have hsp : (s.pushed vs).sp.toNat = s.sp.toNat + vs.length := toNat_ofNat_of_lt h
  refine List.ext_getElem (by simp [topWords]) fun i hi _ => ?_
  have hlt : i < vs.length := by simpa [topWords] using hi
  have hslot : s.sp.toNat + vs.length - i = s.sp.toNat + 1 + (vs.length - 1 - i) := by omega
  rw [List.getElem_reverse]
  simp only [topWords, List.getElem_map, List.getElem_range, hsp, hslot]
  exact Memory.read_writeWords _ _ _ _ (by omega)

/-- Settles O56: the pushes put the words where the pops find them, last first. -/
theorem stackIsLastInFirstOut : Obligations.StackIsLastInFirstOut := by
  rintro s vs ⟨hc, _, _⟩ hfit
  have ⟨_, hwindow, hdata, hmem, _⟩ := hc
  have hsp : (s.pushed vs).sp.toNat = s.sp.toNat + vs.length := toNat_ofNat_of_lt (by omega)
  have hpop := popTimes_eq (s := s.pushed vs) hc vs.length (by omega) (by rwa [hsp])
  rw [topWords_pushed s vs (by omega)] at hpop
  refine ⟨_, _, pushAll_eq hc vs hfit, hpop, ?_⟩
  rw [setSp_sp, hsp, Nat.add_sub_cancel, BitVec.ofNat_toNat, BitVec.setWidth_eq]

/-! ### The register of `FAULT` -/

/-- The region of a code. -/
def regionOf (code : BitVec 2) : Region :=
  if code = 0 then .stack else if code = 1 then .instruction else .programData

theorem regionOf_regionCode (k : Region) : regionOf (regionCode k) = k := by
  cases k <;> rfl

/-- The record that a register layout stands for (R174). -/
def recordOf (r : FaultRegister) : Option FatalError :=
  if r.valid = 0 then none
  else if r.kind = 1 then some (.outOfBounds (regionOf (r.region.getD 0)) (r.info.getD 0).toNat)
  else if r.kind = 2 then some (.unknownOpcode ((r.info.getD 0).setWidth 30))
  else some .divisionByZero

/-- A record in range can be read back from its layout: 33 bits hold its address or its id. -/
theorem recordOf_faultRegister {e : Option FatalError} (h : faultInRange e) : recordOf (faultRegister e) = e := by
  rcases e with _ | ⟨k, a⟩ | id | _
  · rfl
  · have ha : (BitVec.ofNat 33 a).toNat = a := Nat.mod_eq_of_lt h
    show some (FatalError.outOfBounds (regionOf (regionCode k)) (BitVec.ofNat 33 a).toNat) = _
    rw [regionOf_regionCode, ha]
  · have hid : (id.setWidth 33).setWidth 30 = id := by
      rw [BitVec.setWidth_setWidth_of_le _ (by decide), BitVec.setWidth_eq]
    exact congrArg (fun p => some (FatalError.unknownOpcode p)) hid
  · rfl

/-- Settles O60: each record is read back from the one layout. -/
theorem faultRegisterTellsErrorsApart : Obligations.FaultRegisterTellsErrorsApart := by
  intro e f he hf h
  rw [← recordOf_faultRegister he, h, recordOf_faultRegister hf]

end Sys2Proof.Machine
